-- ==== Sys2Proof/Word.lean ====
section
/-! DEFINITION. The machine's plain value types: bytes, 16-bit words, register indices, key codes, the pixel grid. -/

namespace Sys2Proof

/-- An 8-bit value: a general register, a timer, a byte of memory (10_state.md R20, R29, R33). -/
abbrev Byte := BitVec 8

/-- A 16-bit value: I, pc, a stack entry, an instruction word (10_state.md R23, R24, R27; 30_encoding.md R80). -/
abbrev Word := BitVec 16

/-- The index of a general register V0..VF (10_state.md R20). -/
abbrev RegIdx := Fin 16

/-- The code of a virtual key, 0x0..0xF (10_state.md R35). -/
abbrev KeyCode := Fin 16

/-- The grid of 64 x 32 one-bit pixels, column first as the spec writes `fb[px][py]` (10_state.md R34). -/
abbrev Framebuffer := Vector (Vector Bool 32) 64

end Sys2Proof
end

