-- ==== Sys2Proof/WellFormed.lean ====
section
/-! DEFINITION. Which terms of `Instr` stand for an instruction of the machine. -/

namespace Sys2Proof

/-- MAX_SPRITE_ROWS (00_scope.md R7). -/
abbrev maxSpriteRows : Nat := 15

/-- The operands' types bound every field but one: the row count of Dxyn is "a row count in [0,15]"
(30_encoding.md R83; log 28). Every constructor is named, so that a new one cannot pass unseen. -/
def Instr.wellFormed : Instr → Bool
  | .drw _ _ n => decide (n ≤ maxSpriteRows)
  | .cls | .ret | .jp _ | .call _ | .seImm _ _ | .sneImm _ _ | .seReg _ _ | .sneReg _ _ => true
  | .ldImm _ _ | .addImm _ _ | .ldReg _ _ | .orReg _ _ | .andReg _ _ | .xorReg _ _ | .addReg _ _ => true
  | .subReg _ _ | .shr _ _ | .subn _ _ | .shl _ _ | .ldI _ | .jpV0 _ | .rnd _ _ => true
  | .skp _ | .sknp _ | .ldVxDt _ | .ldDtVx _ | .ldStVx _ | .ldVxK _ => true
  | .addI _ | .ldF _ | .ldB _ | .stRegs _ | .ldRegs _ => true

end Sys2Proof
end

