-- ==== Sys2Proof/Decode.lean ====
section
/-! DEFINITION. Decoding an instruction word, encoding one, the opcode map as data, and the assembler syntax (30_encoding.md
R80 to R92). -/

namespace Sys2Proof

/-! ## Fields of a word (30_encoding.md R81) -/

/-- op = w[15:12]. -/
def fieldOp (w : Word) : BitVec 4 := w.extractLsb' 12 4

/-- x = w[11:8], a register index. -/
def fieldX (w : Word) : RegIdx := (w.extractLsb' 8 4).toFin

/-- y = w[7:4], a register index. -/
def fieldY (w : Word) : RegIdx := (w.extractLsb' 4 4).toFin

/-- n = w[3:0], a row count or a function code. -/
def fieldN (w : Word) : Nat := (w.extractLsb' 0 4).toNat

/-- nn = w[7:0]. -/
def fieldNN (w : Word) : Byte := w.extractLsb' 0 8

/-- nnn = w[11:0]. -/
def fieldNNN (w : Word) : BitVec 12 := w.extractLsb' 0 12

/-! ## The decoder -/

/-- Family 8: the function code is the low nibble (30_encoding.md R85 rows 11 to 19, R87, R88). -/
def decodeAlu (x y : RegIdx) (n : Nat) : Option Instr :=
  match n with
  | 0x0 => some (.ldReg x y)
  | 0x1 => some (.orReg x y)
  | 0x2 => some (.andReg x y)
  | 0x3 => some (.xorReg x y)
  | 0x4 => some (.addReg x y)
  | 0x5 => some (.subReg x y)
  | 0x6 => some (.shr x y)
  | 0x7 => some (.subn x y)
  | 0xE => some (.shl x y)
  | _ => none

/-- Family E: the function code is the low byte (30_encoding.md R85 rows 24, 25, R88). -/
def decodeKeyTest (x : RegIdx) (nn : Byte) : Option Instr :=
  if nn = 0x9E then some (.skp x)
  else if nn = 0xA1 then some (.sknp x)
  else none

/-- Family F: the function code is the low byte (30_encoding.md R85 rows 26 to 34, R88). -/
def decodeMisc (x : RegIdx) (nn : Byte) : Option Instr :=
  if nn = 0x07 then some (.ldVxDt x)
  else if nn = 0x0A then some (.ldVxK x)
  else if nn = 0x15 then some (.ldDtVx x)
  else if nn = 0x18 then some (.ldStVx x)
  else if nn = 0x1E then some (.addI x)
  else if nn = 0x29 then some (.ldF x)
  else if nn = 0x33 then some (.ldB x)
  else if nn = 0x55 then some (.stRegs x)
  else if nn = 0x65 then some (.ldRegs x)
  else none

/-- The decoder over families: `none` is the spec's `Unrecognized`, and every fixed nibble is compared
(30_encoding.md R86, R87; D8, log 14). -/
def decodeFields (op : Nat) (x y : RegIdx) (n : Nat) (nn : Byte) (nnn : BitVec 12) : Option Instr :=
  match op with
  | 0x0 => if nnn = 0x0E0 then some .cls else if nnn = 0x0EE then some .ret else none
  | 0x1 => some (.jp nnn)
  | 0x2 => some (.call nnn)
  | 0x3 => some (.seImm x nn)
  | 0x4 => some (.sneImm x nn)
  | 0x5 => if n = 0 then some (.seReg x y) else none
  | 0x6 => some (.ldImm x nn)
  | 0x7 => some (.addImm x nn)
  | 0x8 => decodeAlu x y n
  | 0x9 => if n = 0 then some (.sneReg x y) else none
  | 0xA => some (.ldI nnn)
  | 0xB => some (.jpV0 nnn)
  | 0xC => some (.rnd x nn)
  | 0xD => some (.drw x y n)
  | 0xE => decodeKeyTest x nn
  | 0xF => decodeMisc x nn
  | _ => none

/-- `decode(w)` of 30_encoding.md R86: every field is extracted from every word, and the family's instruction uses its own. -/
def decodeWord (w : Word) : Option Instr :=
  decodeFields (fieldOp w).toNat (fieldX w) (fieldY w) (fieldN w) (fieldNN w) (fieldNNN w)

/-- Why bytes are no instruction. -/
inductive DecodeError where
  /-- Fewer than the 2 bytes of an instruction (30_encoding.md R80). -/
  | truncated
  /-- The word matches no row of the opcode map (30_encoding.md R86, R88); a step treats it as a no-op (R89). -/
  | unrecognized (w : Word)
  deriving DecidableEq, Repr

/-- What the decoder reads from a list of bytes: an instruction and the bytes after it, or a rejection. -/
inductive Decoded where
  | instr (i : Instr) (rest : List Byte)
  | rejected (why : DecodeError)
  deriving DecidableEq, Repr

/-- The byte at the lower address is the high byte (20_memory.md R54; PRESUMED by the spec's decision D1, log 8, unsafe). -/
def wordOfBytes (hi lo : Byte) : Word := hi ++ lo

/-- Decoding is total on any bytes. -/
def decode : List Byte → Decoded
  | hi :: lo :: rest =>
    match decodeWord (wordOfBytes hi lo) with
    | some i => .instr i rest
    | none => .rejected (.unrecognized (wordOfBytes hi lo))
  | [_] => .rejected .truncated
  | [] => .rejected .truncated

/-! ## The encoder, from the layouts of 30_encoding.md R82 -/

/-- A word from its four nibbles, high to low (30_encoding.md R82, column "layout"). -/
def nibbles (a b c d : BitVec 4) : Word := a ++ b ++ c ++ d

/-- A register index as a 4-bit field. -/
def nib (x : RegIdx) : BitVec 4 := BitVec.ofFin x

/-- Format A: op, nnn. -/
def encA (op : BitVec 4) (nnn : BitVec 12) : Word :=
  nibbles op (nnn.extractLsb' 8 4) (nnn.extractLsb' 4 4) (nnn.extractLsb' 0 4)

/-- Formats XK and XF: op, x, and a literal or function byte. -/
def encX (op : BitVec 4) (x : RegIdx) (nn : Byte) : Word :=
  nibbles op (nib x) (nn.extractLsb' 4 4) (nn.extractLsb' 0 4)

/-- Formats XY and XYN: op, x, y, and a function code or row count. -/
def encXY (op : BitVec 4) (x y : RegIdx) (n : BitVec 4) : Word :=
  nibbles op (nib x) (nib y) n

/-- The word of an instruction (30_encoding.md R82, R85). -/
def encodeWord : Instr → Word
  | .cls => nibbles 0x0 0x0 0xE 0x0
  | .ret => nibbles 0x0 0x0 0xE 0xE
  | .jp nnn => encA 0x1 nnn
  | .call nnn => encA 0x2 nnn
  | .seImm x nn => encX 0x3 x nn
  | .sneImm x nn => encX 0x4 x nn
  | .seReg x y => encXY 0x5 x y 0x0
  | .sneReg x y => encXY 0x9 x y 0x0
  | .ldImm x nn => encX 0x6 x nn
  | .addImm x nn => encX 0x7 x nn
  | .ldReg x y => encXY 0x8 x y 0x0
  | .orReg x y => encXY 0x8 x y 0x1
  | .andReg x y => encXY 0x8 x y 0x2
  | .xorReg x y => encXY 0x8 x y 0x3
  | .addReg x y => encXY 0x8 x y 0x4
  | .subReg x y => encXY 0x8 x y 0x5
  | .shr x y => encXY 0x8 x y 0x6
  | .subn x y => encXY 0x8 x y 0x7
  | .shl x y => encXY 0x8 x y 0xE
  | .ldI nnn => encA 0xA nnn
  | .jpV0 nnn => encA 0xB nnn
  | .rnd x nn => encX 0xC x nn
  | .drw x y n => encXY 0xD x y (BitVec.ofNat 4 n)
  | .skp x => encX 0xE x 0x9E
  | .sknp x => encX 0xE x 0xA1
  | .ldVxDt x => encX 0xF x 0x07
  | .ldDtVx x => encX 0xF x 0x15
  | .ldStVx x => encX 0xF x 0x18
  | .ldVxK x => encX 0xF x 0x0A
  | .addI x => encX 0xF x 0x1E
  | .ldF x => encX 0xF x 0x29
  | .ldB x => encX 0xF x 0x33
  | .stRegs x => encX 0xF x 0x55
  | .ldRegs x => encX 0xF x 0x65

/-- The high byte of a word. -/
def hiByte (w : Word) : Byte := w.extractLsb' 8 8

/-- The low byte of a word. -/
def loByte (w : Word) : Byte := w.extractLsb' 0 8

/-- A word as it lies in memory, the byte at the lower address first (20_memory.md R54; log 8). -/
def bytesOfWord (w : Word) : List Byte := [hiByte w, loByte w]

/-- An instruction as it lies in memory. -/
def encode (i : Instr) : List Byte := bytesOfWord (encodeWord i)

/-! ## The opcode map as data (30_encoding.md R85) -/

/-- A row of the opcode map: a word `w` selects it when `w & mask = pattern`. -/
structure OpcodeRow where
  pattern : Word
  mask    : Word
  deriving DecidableEq, Repr

/-- Rows 1 to 8. -/
def opcodeRowsControl : List OpcodeRow :=
  [⟨0x00E0, 0xFFFF⟩, ⟨0x00EE, 0xFFFF⟩, ⟨0x1000, 0xF000⟩, ⟨0x2000, 0xF000⟩,
   ⟨0x3000, 0xF000⟩, ⟨0x4000, 0xF000⟩, ⟨0x5000, 0xF00F⟩, ⟨0x9000, 0xF00F⟩]

/-- Rows 9 to 19. -/
def opcodeRowsAlu : List OpcodeRow :=
  [⟨0x6000, 0xF000⟩, ⟨0x7000, 0xF000⟩, ⟨0x8000, 0xF00F⟩, ⟨0x8001, 0xF00F⟩,
   ⟨0x8002, 0xF00F⟩, ⟨0x8003, 0xF00F⟩, ⟨0x8004, 0xF00F⟩, ⟨0x8005, 0xF00F⟩,
   ⟨0x8006, 0xF00F⟩, ⟨0x8007, 0xF00F⟩, ⟨0x800E, 0xF00F⟩]

/-- Rows 20 to 25. -/
def opcodeRowsWide : List OpcodeRow :=
  [⟨0xA000, 0xF000⟩, ⟨0xB000, 0xF000⟩, ⟨0xC000, 0xF000⟩, ⟨0xD000, 0xF000⟩,
   ⟨0xE09E, 0xF0FF⟩, ⟨0xE0A1, 0xF0FF⟩]

/-- Rows 26 to 34. -/
def opcodeRowsMisc : List OpcodeRow :=
  [⟨0xF007, 0xF0FF⟩, ⟨0xF015, 0xF0FF⟩, ⟨0xF018, 0xF0FF⟩, ⟨0xF00A, 0xF0FF⟩, ⟨0xF01E, 0xF0FF⟩,
   ⟨0xF029, 0xF0FF⟩, ⟨0xF033, 0xF0FF⟩, ⟨0xF055, 0xF0FF⟩, ⟨0xF065, 0xF0FF⟩]

/-- The 34 rows, in the order of 30_encoding.md R85. -/
def opcodeTable : List OpcodeRow :=
  opcodeRowsControl ++ opcodeRowsAlu ++ opcodeRowsWide ++ opcodeRowsMisc

/-- `w` selects row `r`. -/
abbrev OpcodeRow.selectedBy (r : OpcodeRow) (w : Word) : Prop := w &&& r.mask = r.pattern

/-- The number of an instruction's row in 30_encoding.md R85. -/
def Instr.rowNumber : Instr → Nat
  | .cls => 1
  | .ret => 2
  | .jp _ => 3
  | .call _ => 4
  | .seImm _ _ => 5
  | .sneImm _ _ => 6
  | .seReg _ _ => 7
  | .sneReg _ _ => 8
  | .ldImm _ _ => 9
  | .addImm _ _ => 10
  | .ldReg _ _ => 11
  | .orReg _ _ => 12
  | .andReg _ _ => 13
  | .xorReg _ _ => 14
  | .addReg _ _ => 15
  | .subReg _ _ => 16
  | .shr _ _ => 17
  | .subn _ _ => 18
  | .shl _ _ => 19
  | .ldI _ => 20
  | .jpV0 _ => 21
  | .rnd _ _ => 22
  | .drw _ _ _ => 23
  | .skp _ => 24
  | .sknp _ => 25
  | .ldVxDt _ => 26
  | .ldDtVx _ => 27
  | .ldStVx _ => 28
  | .ldVxK _ => 29
  | .addI _ => 30
  | .ldF _ => 31
  | .ldB _ => 32
  | .stRegs _ => 33
  | .ldRegs _ => 34

/-- An instruction's row of the opcode map. -/
def Instr.row? (i : Instr) : Option OpcodeRow := opcodeTable[i.rowNumber - 1]?

/-! ## Assembler syntax (30_encoding.md R91, R92; log 33) -/

/-- A hexadecimal digit. -/
def hexDigit (n : Nat) : Char :=
  ['0', '1', '2', '3', '4', '5', '6', '7', '8', '9', 'A', 'B', 'C', 'D', 'E', 'F'].getD n '0'

/-- The last `k` hexadecimal digits of a number. -/
def hexDigits : Nat → Nat → String
  | 0, _ => ""
  | k + 1, n => (hexDigits k (n / 16)).push (hexDigit (n % 16))

/-- A literal, "in hexadecimal with a `0x` prefix". -/
def hexLiteral (digits n : Nat) : String := "0x" ++ hexDigits digits n

/-- A register, "written `V0` to `VF`". -/
def regName (x : RegIdx) : String := "V" ++ hexDigits 1 x.val

/-- A mnemonic and its operands, at most three, destination first, separated by commas. -/
def asmLine (mnemonic : String) : List String → String
  | [] => mnemonic
  | [a] => mnemonic ++ " " ++ a
  | [a, b] => mnemonic ++ " " ++ a ++ ", " ++ b
  | a :: b :: c :: _ => mnemonic ++ " " ++ a ++ ", " ++ b ++ ", " ++ c

/-- An instruction in the assembler syntax. SHR and SHL are written with Vy, which y always encodes (R91, R92). -/
def Instr.assembly : Instr → String
  | .cls => asmLine "CLS" []
  | .ret => asmLine "RET" []
  | .jp nnn => asmLine "JP" [hexLiteral 3 nnn.toNat]
  | .call nnn => asmLine "CALL" [hexLiteral 3 nnn.toNat]
  | .seImm x nn => asmLine "SE" [regName x, hexLiteral 2 nn.toNat]
  | .sneImm x nn => asmLine "SNE" [regName x, hexLiteral 2 nn.toNat]
  | .seReg x y => asmLine "SE" [regName x, regName y]
  | .sneReg x y => asmLine "SNE" [regName x, regName y]
  | .ldImm x nn => asmLine "LD" [regName x, hexLiteral 2 nn.toNat]
  | .addImm x nn => asmLine "ADD" [regName x, hexLiteral 2 nn.toNat]
  | .ldReg x y => asmLine "LD" [regName x, regName y]
  | .orReg x y => asmLine "OR" [regName x, regName y]
  | .andReg x y => asmLine "AND" [regName x, regName y]
  | .xorReg x y => asmLine "XOR" [regName x, regName y]
  | .addReg x y => asmLine "ADD" [regName x, regName y]
  | .subReg x y => asmLine "SUB" [regName x, regName y]
  | .shr x y => asmLine "SHR" [regName x, regName y]
  | .subn x y => asmLine "SUBN" [regName x, regName y]
  | .shl x y => asmLine "SHL" [regName x, regName y]
  | .ldI nnn => asmLine "LD" ["I", hexLiteral 3 nnn.toNat]
  | .jpV0 nnn => asmLine "JP" ["V0", hexLiteral 3 nnn.toNat]
  | .rnd x nn => asmLine "RND" [regName x, hexLiteral 2 nn.toNat]
  | .drw x y n => asmLine "DRW" [regName x, regName y, hexLiteral 1 n]
  | .skp x => asmLine "SKP" [regName x]
  | .sknp x => asmLine "SKNP" [regName x]
  | .ldVxDt x => asmLine "LD" [regName x, "DT"]
  | .ldDtVx x => asmLine "LD" ["DT", regName x]
  | .ldStVx x => asmLine "LD" ["ST", regName x]
  | .ldVxK x => asmLine "LD" [regName x, "K"]
  | .addI x => asmLine "ADD" ["I", regName x]
  | .ldF x => asmLine "LD" ["F", regName x]
  | .ldB x => asmLine "LD" ["B", regName x]
  | .stRegs x => asmLine "LD" ["[I]", regName x]
  | .ldRegs x => asmLine "LD" [regName x, "[I]"]

/-! ## The opcode table's own numbering of bits -/

/-- The instruction word whose bits are `w` as spec/opcode_table.json numbers them: one 16-bit word, bit 0 its least
significant bit, every bit from `nbits` up 0. -/
def tableWord (nbits w : Nat) : Word := BitVec.ofNat 16 (w % 2 ^ nbits)

/-- The instruction the decoder reads from such a word, laid out as memory holds it. -/
def decodeTableWord (nbits w : Nat) : Option Instr :=
  match decode (bytesOfWord (tableWord nbits w)) with
  | .instr i _ => some i
  | .rejected _ => none

end Sys2Proof
end

