-- ==== Sys2Proof/Config.lean ====
section
/-! DEFINITION. The configuration parameters of 00_scope.md R8 and the free values no rule constrains. -/

namespace Sys2Proof

/-- OOR_POLICY: what an out-of-range address or key index does (00_scope.md R8, D2, D3). -/
inductive OorPolicy where
  | fault
  | wrap
  deriving DecidableEq, Repr

/-- SHIFT_SOURCE: the register 8xy6 and 8xyE shift (00_scope.md R8, D4). -/
inductive ShiftSource where
  | vx
  | vy
  deriving DecidableEq, Repr

/-- RESET_VALUES: whether state the source gives no reset value for is zero or a free draw (00_scope.md R8, D14). -/
inductive ResetValues where
  | zero
  | unknown
  deriving DecidableEq, Repr

/-- FONT: 16 glyphs of 5 bytes (10_state.md R36, D13). -/
abbrev Font := Vector Byte 80

/-- The parameters of 00_scope.md R8. They stand in `State.cfg`, which no operation changes, so that a statement
about every state is a statement about every configuration (DESIGN CHOICE, log 1, safe). -/
structure Config where
  oorPolicy   : OorPolicy
  shiftSource : ShiftSource
  font        : Font
  resetValues : ResetValues
  deriving DecidableEq, Repr

/-- The value of every piece of state that 10_state.md R40 marks "decision D14", as one reset under
RESET_VALUES = unknown draws it. The bytes of `mem` at the font's addresses are not used. -/
structure ResetDraw where
  v     : Vector Byte 16
  index : Word
  sp    : Fin 17
  stack : Vector Word 16
  dt    : Byte
  st    : Byte
  mem   : Vector Byte 4096
  fb    : Framebuffer
  key   : Vector Bool 16
  deriving DecidableEq, Repr, Inhabited

/-- Free value: the `n`-th byte of the random source (42_register_alu.md R160, D17; log 2). -/
opaque Config.randomByte : Nat → Byte

/-- Free value: what the `n`-th draw of a reset under RESET_VALUES = unknown yields (10_state.md R40, D14; log 6). -/
opaque Config.resetDraw : Nat → ResetDraw

end Sys2Proof
end

