-- ==== Sys2Proof/Machine/Font.lean ====
section
/-! DEFINITION. The default value of the FONT parameter and the default configuration (00_scope.md R8). -/

namespace Sys2Proof.Machine

/-- The conventional font of 10_state.md R36, one row of text a glyph, digits 0 to F (PRESUMED: the spec takes the bytes
from general knowledge, D13, log 5, unsafe). -/
def conventionalFont : Font := Vector.mk #[
  0xF0, 0x90, 0x90, 0x90, 0xF0,
  0x20, 0x60, 0x20, 0x20, 0x70,
  0xF0, 0x10, 0xF0, 0x80, 0xF0,
  0xF0, 0x10, 0xF0, 0x10, 0xF0,
  0x90, 0x90, 0xF0, 0x10, 0x10,
  0xF0, 0x80, 0xF0, 0x10, 0xF0,
  0xF0, 0x80, 0xF0, 0x90, 0xF0,
  0xF0, 0x10, 0x20, 0x40, 0x40,
  0xF0, 0x90, 0xF0, 0x90, 0xF0,
  0xF0, 0x90, 0xF0, 0x10, 0xF0,
  0xF0, 0x90, 0xF0, 0x90, 0x90,
  0xE0, 0x90, 0xE0, 0x90, 0xE0,
  0xF0, 0x80, 0x80, 0x80, 0xF0,
  0xE0, 0x90, 0x90, 0x90, 0xE0,
  0xF0, 0x80, 0xF0, 0x80, 0xF0,
  0xF0, 0x80, 0xF0, 0x80, 0x80] rfl

/-- The default of every parameter (00_scope.md R8). -/
def defaultConfig : Config where
  oorPolicy := .fault
  shiftSource := .vx
  font := conventionalFont
  resetValues := .zero

end Sys2Proof.Machine
end

