-- ==== Sys2Proof/Machine/State.lean ====
section
/-! DEFINITION. The machine's state as plain data, its state after reset, and the reasons a step could stop. -/

namespace Sys2Proof.Machine

/-- The cause of an OutOfRange exception (60_exceptions.md R230). -/
inductive FaultReason where
  | fetchOutOfRange
  | dataOutOfRange
  | keyOutOfRange
  deriving DecidableEq, Repr

/-- The record `Faulted` carries (10_state.md R32). -/
structure FaultInfo where
  reason  : FaultReason
  faultPc : Word
  value   : Word
  deriving DecidableEq, Repr

/-- `exec`, the execution state (10_state.md R31). -/
inductive ExecState where
  | running
  | waitingForKey (x : RegIdx)
  | faulted (info : FaultInfo)
  deriving DecidableEq, Repr

/-- Memory as the list of (address, byte) pairs that differ from the reset contents, addresses strictly rising
(20_memory.md R50; the form is DESIGN CHOICE, log 26, safe). -/
abbrev Memory := List Host.Cell

/-- Reasons a step stops the machine without a next state: there are none. The spec's only exception is taken by
entering `ExecState.faulted`, which is a next state, and "All other operations are total" (40_execution_cycle.md R108,
R109; DESIGN CHOICE, log 7, safe: no meaning can raise one). -/
inductive Fault
  deriving DecidableEq, Repr

/-- Reasons an instruction is refused. -/
inductive Refusal where
  /-- The instruction has no meaning yet. Raised by the refused arms of `exec` only, of which there are none; safe. -/
  | notModelled (mnemonic : String)
  deriving DecidableEq, Repr

/-- Every piece of state of 10_state.md, then the configuration and the model's own records. -/
structure State where
  /-- V0..VF (R20, R21). -/
  v : Vector Byte 16
  /-- I (R23). -/
  index : Word
  /-- The program counter (R24). -/
  pc : Word
  /-- stack[0..15] (R27). -/
  stack : Vector Word 16
  /-- SP, the number of stack entries in use (R27). -/
  sp : Fin 17
  /-- The delay timer (R29). -/
  dt : Byte
  /-- The sound timer (R30). -/
  st : Byte
  /-- `exec` (R31, R32). -/
  execState : ExecState
  /-- Memory (R33). -/
  mem : Memory
  /-- The framebuffer (R34). -/
  fb : Framebuffer
  /-- The key latch (R35). -/
  key : Vector Bool 16
  /-- The configuration parameters (00_scope.md R8; log 1). -/
  cfg : Config
  /-- The model's record of the latest step's result (40_execution_cycle.md R107; log 3). -/
  redraw : Bool
  /-- The model's record of the draw the host gave with the step, if it gave one (40_execution_cycle.md R100; log 2). -/
  draw : Option Byte
  /-- The model's own: how many free values have been taken (log 2, log 6). -/
  freeCount : Nat
  deriving DecidableEq, Repr

/-- The machine right after reset, under the default configuration (10_state.md R40, 70_reset_and_hazards.md R270). The
zeros are the spec's decision D14 (DESIGN CHOICE, log 4, unsafe); `redraw`, `draw` and `freeCount` are the model's own
(DESIGN CHOICE, log 2, log 3). -/
def State.reset : State where
  v := Vector.replicate 16 0
  index := 0
  pc := 0x0200
  stack := Vector.replicate 16 0
  sp := 0
  dt := 0
  st := 0
  execState := .running
  mem := []
  fb := Vector.replicate 64 (Vector.replicate 32 false)
  key := Vector.replicate 16 false
  cfg := defaultConfig
  redraw := false
  draw := none
  freeCount := 0

end Sys2Proof.Machine
end

