-- ==== Sys2Proof/Machine/Ops.lean ====
section
/-! DEFINITION. The named operations over registers, memory, stack and framebuffer, the range check, and taking the
OutOfRange exception. -/

namespace Sys2Proof.Machine

/-- What a meaning answers. -/
abbrev StepOutcome := Host.Outcome State Fault Refusal

/-! ## General registers (10_state.md R20) -/

/-- `V[x]`. -/
def State.reg (s : State) (x : RegIdx) : Byte := s.v.get x

/-- `V[x] <- b`. -/
def State.setReg (s : State) (x : RegIdx) (b : Byte) : State := { s with v := s.v.set x.val b x.isLt }

/-- `V[k] <- bs[k]` for every `k` below the length of `bs`. -/
def State.loadRegs (s : State) (bs : List Byte) : State :=
  { s with v := Vector.ofFn fun k => bs.getD k.val (s.v.get k) }

/-- V0, .., Vx in order. -/
def State.regsUpTo (s : State) (x : RegIdx) : List Byte := s.v.toList.take (x.val + 1)

/-- VF, the flag register (10_state.md R21). -/
abbrev vf : RegIdx := 0xF

/-! ## Program counter (10_state.md R24, R26; 40_execution_cycle.md R103) -/

/-- The advance past a fetched instruction, modulo 2^16; the step's redraw result starts as false (R110). -/
def State.advance (s : State) : State := { s with pc := s.pc + 2, redraw := false }

/-- `pc <- target`. -/
def State.jump (s : State) (target : Word) : State := { s with pc := target }

/-- `if cond: skip`, after the step's own advance (00_scope.md R11, 41_control_flow.md R120). -/
def State.skipIf (s : State) (cond : Bool) : State := if cond then { s with pc := s.pc + 2 } else s

/-! ## Call stack (10_state.md R27; D33, log 18) -/

/-- Push a return address and jump, or do nothing when the stack is full (41_control_flow.md R124, R125). -/
def State.callTo (s : State) (target : Word) : State :=
  if h : s.sp.val < 16 then
    { s with stack := s.stack.set s.sp.val s.pc h, sp := ⟨s.sp.val + 1, by omega⟩, pc := target }
  else s

/-- Pop a return address into pc, or do nothing when the stack is empty (41_control_flow.md R121, R122). -/
def State.popToPc (s : State) : State :=
  if h : 0 < s.sp.val then
    { s with sp := ⟨s.sp.val - 1, by omega⟩,
             pc := s.stack[s.sp.val - 1]'(by have := s.sp.isLt; omega) }
  else s

/-! ## Memory (20_memory.md R50 to R59) -/

/-- MEM_SIZE (00_scope.md R7). -/
abbrev memSize : Nat := 4096

/-- FONT_BASE (00_scope.md R7). -/
abbrev fontBase : Nat := 0x050

/-- What an address that memory does not list reads as: the reset contents, the font at 0x050..0x09F and 0x00 elsewhere
(10_state.md R33, R40; log 5). -/
def Memory.blank (f : Font) (a : Nat) : Byte :=
  if fontBase ≤ a then f.toList.getD (a - fontBase) 0 else 0

/-- Read one byte. -/
def Memory.get (f : Font) : Memory → Nat → Byte
  | [], a => Memory.blank f a
  | (k, b) :: rest, a => if a = k then b else Memory.get f rest a

/-- Put a pair into its place by address. -/
def Memory.insert (a : Nat) (b : Byte) : Memory → Memory
  | [] => [(a, b)]
  | (k, c) :: rest => if a < k then (a, b) :: (k, c) :: rest else (k, c) :: Memory.insert a b rest

/-- Write one byte, keeping the canonical form: writing what an unlisted address reads as removes the entry (log 26). -/
def Memory.put (f : Font) (m : Memory) (a : Nat) (b : Byte) : Memory :=
  let others : Memory := m.filter fun c => decide (c.1 ≠ a)
  if b = Memory.blank f a then others else Memory.insert a b others

/-- The canonical form: addresses strictly rise, lie in the address space, and no entry equals what an unlisted address
reads as. -/
abbrev Memory.wf (f : Font) (m : Memory) : Prop :=
  m.Pairwise (fun p q => p.1 < q.1) ∧ ∀ c ∈ m, c.1 < memSize ∧ c.2 ≠ Memory.blank f c.1

/-- `mem[a]`. -/
def State.byteAt (s : State) (a : Nat) : Byte := Memory.get s.cfg.font s.mem a

/-- `mem[a] <- b`: no address is protected (20_memory.md R52; D23, log 25). -/
def State.setByte (s : State) (a : Nat) (b : Byte) : State := { s with mem := Memory.put s.cfg.font s.mem a b }

/-! ## The range check (20_memory.md R55) -/

/-- An OutOfRange exception as raised: its reason and the out-of-range address or key index. -/
structure OutOfRange where
  reason : FaultReason
  value  : Word
  deriving DecidableEq, Repr

/-- The address an access reaches, or the exception it raises. `addr` is a sum formed without truncation. -/
def rangeCheck (p : OorPolicy) (reason : FaultReason) (addr : Nat) : Except OutOfRange Nat :=
  if addr < memSize then .ok addr
  else match p with
    | .fault => .error ⟨reason, BitVec.ofNat 16 addr⟩
    | .wrap => .ok (addr % memSize)

/-- Read `n` bytes from `addr` upward, each under the range check, stopping at the first that raises
(20_memory.md R55, 60_exceptions.md R235). -/
def State.readBytes (s : State) (reason : FaultReason) : Nat → Nat → Except OutOfRange (List Byte)
  | 0, _ => .ok []
  | n + 1, addr =>
    match rangeCheck s.cfg.oorPolicy reason addr with
    | .error e => .error e
    | .ok a =>
      match State.readBytes s reason n (addr + 1) with
      | .error e => .error e
      | .ok bs => .ok (s.byteAt a :: bs)

/-- Write bytes from `addr` upward, each under the range check, stopping at the first that raises. -/
def State.writeBytes (s : State) : List Byte → Nat → Except OutOfRange State
  | [], _ => .ok s
  | b :: bs, addr =>
    match rangeCheck s.cfg.oorPolicy .dataOutOfRange addr with
    | .error e => .error e
    | .ok a => State.writeBytes (s.setByte a b) bs (addr + 1)

/-- Fetch: the bytes at pc and pc + 1 as memory stands, pc of any parity, the second address formed without truncation
(20_memory.md R55, R57, R58, R64; D29, log 20; D22, log 32). -/
def State.fetchBytes (s : State) : Except OutOfRange (List Byte) :=
  s.readBytes .fetchOutOfRange 2 s.pc.toNat

/-! ## Taking the exception (40_execution_cycle.md R108, 60_exceptions.md R232)

No instruction returns from it: only the host's reset leaves Faulted (60_exceptions.md R233). -/

/-- The numeric code of a cause (60_exceptions.md R230). -/
def FaultReason.code : FaultReason → Nat
  | .fetchOutOfRange => 1
  | .dataOutOfRange => 2
  | .keyOutOfRange => 3

/-- `s` is the state BEFORE the step: nothing of the step is committed, pc keeps the instruction's address, which the
record holds as fault_pc, and the step's redraw result is false. -/
def State.takeOutOfRange (s : State) (e : OutOfRange) : State :=
  { s with execState := .faulted ⟨e.reason, s.pc, e.value⟩, redraw := false }

/-- Commit a step's working state, or take the exception the step raised in the state `s` before it
(40_execution_cycle.md R110). -/
def commit (s : State) : Except OutOfRange State → StepOutcome
  | .ok t => .next t
  | .error e => .next (s.takeOutOfRange e)

/-! ## Steps that execute no instruction -/

/-- An unrecognized word changes only pc, by the advance (30_encoding.md R89). -/
def execUnrecognized (s : State) : StepOutcome := .next s.advance

/-- A step while waiting or faulted changes nothing and returns redraw = false (40_execution_cycle.md R101). -/
def idleStep (s : State) : StepOutcome := .next { s with redraw := false }

/-! ## The random source (42_register_alu.md R160; log 2) -/

/-- `RandomByte()`: the draw the host gave with this step, else the free value. -/
def State.randomByte (s : State) : Byte :=
  match s.draw with
  | some r => r
  | none => Config.randomByte s.freeCount

/-- One draw is consumed. -/
def State.consumeDraw (s : State) : State := { s with draw := none, freeCount := s.freeCount + 1 }

/-! ## Framebuffer (44_display.md R190 to R194) -/

/-- `fb[px][py]`. -/
def Framebuffer.pixel (fb : Framebuffer) (px : Fin 64) (py : Fin 32) : Bool := (fb.get px).get py

/-- `fb[px][py] <- b`. -/
def Framebuffer.setPixel (fb : Framebuffer) (px : Fin 64) (py : Fin 32) (b : Bool) : Framebuffer :=
  fb.set px.val ((fb.get px).set py.val b py.isLt) px.isLt

/-- Every pixel 0 (R190). -/
def Framebuffer.clear : Framebuffer := Vector.replicate 64 (Vector.replicate 32 false)

/-- The target column `(px0 + c) mod 64` (R193). -/
def wrapX (n : Nat) : Fin 64 := ⟨n % 64, Nat.mod_lt _ (by decide)⟩

/-- The target row `(py0 + r) mod 32` (R193). -/
def wrapY (n : Nat) : Fin 32 := ⟨n % 32, Nat.mod_lt _ (by decide)⟩

/-- A drawing in progress: the framebuffer and whether a pixel has collided. -/
structure Drawing where
  fb  : Framebuffer
  hit : Bool
  deriving DecidableEq, Repr

/-- One sprite bit on one pixel: a 1 bit collides with a pixel that is 1, and inverts the pixel (R191, R192, R194). -/
def Drawing.plot (d : Drawing) (px : Fin 64) (py : Fin 32) (bit : Bool) : Drawing :=
  if bit then ⟨Framebuffer.setPixel d.fb px py (!Framebuffer.pixel d.fb px py), d.hit || Framebuffer.pixel d.fb px py⟩
  else d

/-- The sprite bit of column `c` of a row: bit 7 is the leftmost, column 0 (R194; PRESUMED by D12, log 9, unsafe). -/
def spriteBit (row : Byte) (c : Nat) : Bool := row.getLsbD (7 - c)

/-- The first `n` columns of a row, left to right. -/
def Drawing.row (d : Drawing) (px0 py : Nat) (bits : Byte) : Nat → Drawing
  | 0 => d
  | n + 1 => (Drawing.row d px0 py bits n).plot (wrapX (px0 + n)) (wrapY py) (spriteBit bits n)

/-- The rows of a sprite, top to bottom, from row `py` down. -/
def Drawing.sprite (d : Drawing) (px0 py : Nat) : List Byte → Drawing
  | [] => d
  | bits :: rows => Drawing.sprite (d.row px0 py bits 8) px0 (py + 1) rows

end Sys2Proof.Machine
end

