-- ==== Sys2Proof/Machine/Flags.lean ====
section
/-! DEFINITION. The flag computations, and writing VF after the result (10_state.md R38). -/

namespace Sys2Proof.Machine

/-- A flag as the byte VF holds: 1 or 0. -/
def flagByte (f : Bool) : Byte := if f then 1 else 0

/-- The carry of 8xy4: the sum exceeds 255 (42_register_alu.md R147). -/
def carryFlag (a b : Byte) : Bool := decide (a.toNat + b.toNat > 255)

/-- The flag of 8xy5 and 8xy7: the minuend is STRICTLY greater (42_register_alu.md R148, R150; 90_conflicts.md C4, log 17). -/
def greaterFlag (a b : Byte) : Bool := decide (a.toNat > b.toNat)

/-- The bit 8xy6 shifts out, bit 0 (42_register_alu.md R149). -/
def shiftedOutLow (a : Byte) : Bool := a.getLsbD 0

/-- The bit 8xyE shifts out, bit 7 (42_register_alu.md R151). -/
def shiftedOutHigh (a : Byte) : Bool := a.getLsbD 7

/-- Write the result, then VF: for x = 0xF the flag replaces the result (40_execution_cycle.md R106; D5, log 11, unsafe). -/
def State.setRegThenFlag (s : State) (x : RegIdx) (b : Byte) (f : Bool) : State :=
  (s.setReg x b).setReg vf (flagByte f)

end Sys2Proof.Machine
end

