-- ==== Sys2Proof/Machine/Operands.lean ====
section
/-! DEFINITION. The operand forms: immediates, effective addresses, key indices, shift sources, decimal digits. -/

namespace Sys2Proof.Machine

/-- `zext_16(nnn)` (30_encoding.md R83). -/
def zextNNN (nnn : BitVec 12) : Word := nnn.setWidth 16

/-- `zext_16(b)` of a register's value. -/
def zextByte (b : Byte) : Word := b.setWidth 16

/-- The effective address of byte `k`: `I + k`, formed without truncation (43_index_memory.md, opening). -/
def State.dataAddr (s : State) (k : Nat) : Nat := s.index.toNat + k

/-- `KeyIndex(v)` (45_timers_input.md R210). -/
def keyIndex (p : OorPolicy) (b : Byte) : Except OutOfRange KeyCode :=
  if h : b.toNat < 16 then .ok ⟨b.toNat, h⟩
  else match p with
    | .fault => .error ⟨.keyOutOfRange, zextByte b⟩
    | .wrap => .ok ⟨b.toNat % 16, Nat.mod_lt _ (by decide)⟩

/-- `key[k]`. -/
def State.pressed (s : State) (k : KeyCode) : Bool := s.key.get k

/-- The register 8xy6 and 8xyE shift (42_register_alu.md R149, R151; D4, log 10). -/
def State.shiftOperand (s : State) (x y : RegIdx) : Byte :=
  match s.cfg.shiftSource with
  | .vx => s.reg x
  | .vy => s.reg y

/-- `0x0050 + zext_16(v & 0xF) * 5` (43_index_memory.md R172). -/
def glyphAddr (b : Byte) : Word := 0x0050 + zextByte (b &&& 0x0F) * 5

/-- The hundreds, tens and ones of a byte, the most significant digit first (43_index_memory.md R173, 20_memory.md R54). -/
def decimalDigits (b : Byte) : List Byte :=
  [BitVec.ofNat 8 (b.toNat / 100), BitVec.ofNat 8 (b.toNat / 10 % 10), BitVec.ofNat 8 (b.toNat % 10)]

end Sys2Proof.Machine
end

