-- ==== Sys2Proof/Machine/Alu.lean ====
section
/-! DEFINITION. Register loads, the ALU family and the random byte (42_register_alu.md). Operands are read from the state
before any write (40_execution_cycle.md R106). -/

namespace Sys2Proof.Machine

/-- 6xnn (R141). -/
def execLdImm (x : RegIdx) (nn : Byte) (s : State) : StepOutcome := .next (s.advance.setReg x nn)

/-- 7xnn: modulo 256, no flag (R142). -/
def execAddImm (x : RegIdx) (nn : Byte) (s : State) : StepOutcome := .next (s.advance.setReg x (s.reg x + nn))

/-- 8xy0 (R143). -/
def execLdReg (x y : RegIdx) (s : State) : StepOutcome := .next (s.advance.setReg x (s.reg y))

/-- 8xy1 (R144). -/
def execOrReg (x y : RegIdx) (s : State) : StepOutcome := .next (s.advance.setReg x (s.reg x ||| s.reg y))

/-- 8xy2 (R145). -/
def execAndReg (x y : RegIdx) (s : State) : StepOutcome := .next (s.advance.setReg x (s.reg x &&& s.reg y))

/-- 8xy3 (R146). -/
def execXorReg (x y : RegIdx) (s : State) : StepOutcome := .next (s.advance.setReg x (s.reg x ^^^ s.reg y))

/-- 8xy4 (R147). -/
def execAddReg (x y : RegIdx) (s : State) : StepOutcome :=
  .next (s.advance.setRegThenFlag x (s.reg x + s.reg y) (carryFlag (s.reg x) (s.reg y)))

/-- 8xy5 (R148). -/
def execSubReg (x y : RegIdx) (s : State) : StepOutcome :=
  .next (s.advance.setRegThenFlag x (s.reg x - s.reg y) (greaterFlag (s.reg x) (s.reg y)))

/-- 8xy6 (R149). -/
def execShr (x y : RegIdx) (s : State) : StepOutcome :=
  .next (s.advance.setRegThenFlag x (s.shiftOperand x y >>> 1) (shiftedOutLow (s.shiftOperand x y)))

/-- 8xy7 (R150). -/
def execSubn (x y : RegIdx) (s : State) : StepOutcome :=
  .next (s.advance.setRegThenFlag x (s.reg y - s.reg x) (greaterFlag (s.reg y) (s.reg x)))

/-- 8xyE (R151). -/
def execShl (x y : RegIdx) (s : State) : StepOutcome :=
  .next (s.advance.setRegThenFlag x (s.shiftOperand x y <<< 1) (shiftedOutHigh (s.shiftOperand x y)))

/-- Cxnn (R161); one draw is consumed (R160). -/
def execRnd (x : RegIdx) (nn : Byte) (s : State) : StepOutcome :=
  .next (s.advance.consumeDraw.setReg x (s.randomByte &&& nn))

end Sys2Proof.Machine
end

