-- ==== Sys2Proof/Machine/Control.lean ====
section
/-! DEFINITION. Control transfer: returns, jumps, calls and skips (41_control_flow.md). -/

namespace Sys2Proof.Machine

/-- 00EE (R121; an empty stack is a no-op, R122). -/
def execRet (s : State) : StepOutcome := .next s.advance.popToPc

/-- 1nnn (R123). -/
def execJp (nnn : BitVec 12) (s : State) : StepOutcome := .next (s.advance.jump (zextNNN nnn))

/-- 2nnn (R124; a full stack drops the call, R125). -/
def execCall (nnn : BitVec 12) (s : State) : StepOutcome := .next (s.advance.callTo (zextNNN nnn))

/-- Bnnn: the sum is modulo 2^16 and not truncated to 12 bits (R126; D30, log 19). -/
def execJpV0 (nnn : BitVec 12) (s : State) : StepOutcome :=
  .next (s.advance.jump (zextNNN nnn + zextByte (s.reg 0)))

/-- 3xnn (R127). -/
def execSeImm (x : RegIdx) (nn : Byte) (s : State) : StepOutcome := .next (s.advance.skipIf (decide (s.reg x = nn)))

/-- 4xnn (R128). -/
def execSneImm (x : RegIdx) (nn : Byte) (s : State) : StepOutcome := .next (s.advance.skipIf (decide (s.reg x ≠ nn)))

/-- 5xy0 (R129). -/
def execSeReg (x y : RegIdx) (s : State) : StepOutcome := .next (s.advance.skipIf (decide (s.reg x = s.reg y)))

/-- 9xy0 (R130). -/
def execSneReg (x y : RegIdx) (s : State) : StepOutcome := .next (s.advance.skipIf (decide (s.reg x ≠ s.reg y)))

end Sys2Proof.Machine
end

