-- ==== Sys2Proof/Machine/Display.lean ====
section
/-! DEFINITION. Framebuffer clear and sprite draw (44_display.md). -/

namespace Sys2Proof.Machine

/-- 00E0 (R190). -/
def execCls (s : State) : StepOutcome := .next { s.advance with fb := Framebuffer.clear, redraw := true }

/-- The working state after the sprite's rows are drawn at (px0, py0): the pixels, then VF, then redraw (R191, R195). -/
def State.drawSprite (t : State) (px0 py0 : Byte) (rows : List Byte) : State :=
  let d := Drawing.sprite ⟨t.fb, false⟩ px0.toNat py0.toNat rows
  { t.setReg vf (flagByte d.hit) with fb := d.fb, redraw := true }

/-- Dxyn: the coordinates and all sprite bytes are read before any write (R191; the bytes' address is D11, log 9). -/
def execDrw (x y : RegIdx) (n : Nat) (s : State) : StepOutcome :=
  commit s ((s.readBytes .dataOutOfRange n (s.dataAddr 0)).map (s.advance.drawSprite (s.reg x) (s.reg y)))

end Sys2Proof.Machine
end

