-- ==== Sys2Proof/Machine/Index.lean ====
section
/-! DEFINITION. The index register and memory transfers (43_index_memory.md). No transfer changes I (D7, log 13). -/

namespace Sys2Proof.Machine

/-- Annn (R170). -/
def execLdI (nnn : BitVec 12) (s : State) : StepOutcome := .next { s.advance with index := zextNNN nnn }

/-- Fx1E: modulo 2^16, no flag (R171). -/
def execAddI (x : RegIdx) (s : State) : StepOutcome := .next { s.advance with index := s.index + zextByte (s.reg x) }

/-- Fx29 (R172). -/
def execLdF (x : RegIdx) (s : State) : StepOutcome := .next { s.advance with index := glyphAddr (s.reg x) }

/-- Fx33 (R173). -/
def execLdB (x : RegIdx) (s : State) : StepOutcome :=
  commit s (s.advance.writeBytes (decimalDigits (s.reg x)) (s.dataAddr 0))

/-- Fx55 (R174). -/
def execStRegs (x : RegIdx) (s : State) : StepOutcome :=
  commit s (s.advance.writeBytes (s.regsUpTo x) (s.dataAddr 0))

/-- Fx65 (R175). -/
def execLdRegs (x : RegIdx) (s : State) : StepOutcome :=
  commit s ((s.readBytes .dataOutOfRange (x.val + 1) (s.dataAddr 0)).map s.advance.loadRegs)

end Sys2Proof.Machine
end

