-- ==== Sys2Proof/Machine/Input.lean ====
section
/-! DEFINITION. Key tests, timer access and wait-for-key (45_timers_input.md). -/

namespace Sys2Proof.Machine

/-- Ex9E (R211). -/
def execSkp (x : RegIdx) (s : State) : StepOutcome :=
  commit s ((keyIndex s.cfg.oorPolicy (s.reg x)).map fun k => s.advance.skipIf (s.pressed k))

/-- ExA1 (R212). -/
def execSknp (x : RegIdx) (s : State) : StepOutcome :=
  commit s ((keyIndex s.cfg.oorPolicy (s.reg x)).map fun k => s.advance.skipIf (!s.pressed k))

/-- Fx07 (R213). -/
def execLdVxDt (x : RegIdx) (s : State) : StepOutcome := .next (s.advance.setReg x s.dt)

/-- Fx15 (R214). -/
def execLdDtVx (x : RegIdx) (s : State) : StepOutcome := .next { s.advance with dt := s.reg x }

/-- Fx18 (R215). -/
def execLdStVx (x : RegIdx) (s : State) : StepOutcome := .next { s.advance with st := s.reg x }

/-- Fx0A: the advance has retired and Vx is not written; a later key-down ends the wait (R216, R218). -/
def execLdVxK (x : RegIdx) (s : State) : StepOutcome := .next { s.advance with execState := .waitingForKey x }

end Sys2Proof.Machine
end

