-- ==== Sys2Proof/Machine/Step.lean ====
section
/-! DEFINITION. The step operation (40_execution_cycle.md R100 to R110), and placing a word where it fetches. -/

namespace Sys2Proof.Machine

/-- Fetch, decode, execute, in the Running state only (R101 to R105, R110). An instruction's meaning makes the advance
and takes the exception it raises; a fetch that raises takes it here. -/
def step (s : State) : Host.Outcome State Fault Refusal :=
  match s.execState with
  | .waitingForKey _ => idleStep s
  | .faulted _ => idleStep s
  | .running =>
    match s.fetchBytes with
    | .error e => commit s (.error e)
    | .ok bytes =>
      match decode bytes with
      | .instr i _ => exec i s
      | .rejected _ => execUnrecognized s

/-- A pc from which a fetch is in range: pc itself, or the reset entry point where policy fault would raise. -/
def State.fetchablePc (s : State) : Word :=
  if s.cfg.oorPolicy = .fault ∧ memSize ≤ s.pc.toNat + 1 then 0x0200 else s.pc

/-- `s` with the word of spec/opcode_table.json stored where step fetches next, and made ready to fetch it: Running, and
pc where a fetch is in range (log 24). -/
def State.withFetchWord (s : State) (nbits w : Nat) : State :=
  let t := { s with execState := .running, pc := s.fetchablePc }
  (t.setByte (t.pc.toNat % memSize) (hiByte (tableWord nbits w))).setByte
    ((t.pc.toNat + 1) % memSize) (loByte (tableWord nbits w))

end Sys2Proof.Machine
end

