-- ==== Sys2Proof/Machine/HostOps.lean ====
section
/-! DEFINITION. The eight host operations and runs of them (60_exceptions.md R255, R256; 70_reset_and_hazards.md R285). -/

namespace Sys2Proof.Machine

/-- An operation the host issues (R255; log 21). -/
inductive HostOp where
  | reset
  | load (image : List Byte)
  | step (r : Byte)
  | tick
  | keyDown (k : KeyCode)
  | keyUp (k : KeyCode)
  | readFb
  | readStatus
  deriving DecidableEq, Repr

/-- What an operation returns (R255). -/
inductive HostResult where
  | none
  | loadOk
  | loadError
  | redraw (b : Bool)
  | tone (b : Bool)
  | snapshot (fb : Framebuffer)
  | status (e : ExecState)
  deriving DecidableEq, Repr

/-- PROGRAM_BASE (00_scope.md R7). -/
abbrev programBase : Nat := 0x200

/-- Every byte a reset draws that is not a byte of the font, in canonical form (10_state.md R40, D14). -/
def drawnMemory (f : Font) (d : ResetDraw) : Memory :=
  ((List.range memSize).map fun a => ((a, d.mem.toList.getD a 0) : Host.Cell)).filter fun c =>
    decide (¬(fontBase ≤ c.1 ∧ c.1 < fontBase + 80) ∧ c.2 ≠ Memory.blank f c.1)

/-- `reset()`: State.reset under the machine's own configuration; under RESET_VALUES = unknown what R40 marks
"decision D14" is a draw. The random source is not touched, so the count of free values taken goes on
(70_reset_and_hazards.md R270, R271; log 6). -/
def State.hostReset (s : State) : State :=
  match s.cfg.resetValues with
  | .zero => { State.reset with cfg := s.cfg, freeCount := s.freeCount }
  | .unknown =>
    let d := Config.resetDraw s.freeCount
    { State.reset with
      cfg := s.cfg, freeCount := s.freeCount + 1,
      v := d.v, index := d.index, sp := d.sp, stack := d.stack, dt := d.dt, st := d.st,
      mem := drawnMemory s.cfg.font d, fb := d.fb, key := d.key }

/-- Write an image from an address upward. -/
def State.loadImage (s : State) : List Byte → Nat → State
  | [], _ => s
  | b :: bs, a => State.loadImage (s.setByte a b) bs (a + 1)

/-- `load(image)`: refused without a state change when the image does not fit (20_memory.md R66). -/
def State.hostLoad (s : State) (image : List Byte) : State × HostResult :=
  if programBase + image.length ≤ memSize then (s.loadImage image programBase, .loadOk) else (s, .loadError)

/-- `step()` with the draw `r` (40_execution_cycle.md R100): the draw is the step's input and does not outlive it. -/
def State.hostStep (s : State) (r : Byte) : Host.Outcome (State × HostResult) Fault Refusal :=
  match step { s with draw := some r } with
  | .next t => .next ({ t with draw := none }, .redraw t.redraw)
  | .fault e => .fault e
  | .refused e => .refused e

/-- One timer's countdown: it stays at 0 (60_exceptions.md R240, R241). -/
def countDown (b : Byte) : Byte := if b = 0 then 0 else b - 1

/-- `tick()`: the tone sounds iff ST is still above 0 after being decremented (60_exceptions.md R240, R241, R243). -/
def State.tick (s : State) : State × Bool :=
  ({ s with dt := countDown s.dt, st := countDown s.st }, decide (s.st ≠ 0 ∧ countDown s.st ≠ 0))

/-- `key_down(k)`: set the latch, then deliver the code to a pending wait (60_exceptions.md R244, R245). -/
def State.keyDown (s : State) (k : KeyCode) : State :=
  let t := { s with key := s.key.set k.val true k.isLt }
  match s.execState with
  | .waitingForKey x => { t.setReg x (BitVec.ofNat 8 k.val) with execState := .running }
  | .running => t
  | .faulted _ => t

/-- `key_up(k)` (60_exceptions.md R246). -/
def State.keyUp (s : State) (k : KeyCode) : State := { s with key := s.key.set k.val false k.isLt }

/-- One host operation: the next state and the operation's result (60_exceptions.md R255). -/
def hostOp (op : HostOp) (s : State) : Host.Outcome (State × HostResult) Fault Refusal :=
  match op with
  | .reset => .next (s.hostReset, .none)
  | .load image => .next (s.hostLoad image)
  | .step r => s.hostStep r
  | .tick => .next (s.tick.1, .tone s.tick.2)
  | .keyDown k => .next (s.keyDown k, .none)
  | .keyUp k => .next (s.keyUp k, .none)
  | .readFb => .next (s, .snapshot s.fb)
  | .readStatus => .next (s, .status s.execState)

/-- A run: host operations in the order issued, with their results (70_reset_and_hazards.md R285). -/
def runOps : List HostOp → State → Host.Outcome (State × List HostResult) Fault Refusal
  | [], s => .next (s, [])
  | op :: ops, s =>
    match hostOp op s with
    | .next (t, r) =>
      match runOps ops t with
      | .next (u, rs) => .next (u, r :: rs)
      | .fault e => .fault e
      | .refused e => .refused e
    | .fault e => .fault e
    | .refused e => .refused e

end Sys2Proof.Machine
end

