-- ==== Sys2Proof/Safety.lean ====
section
/-! DEFINITION. What counts as a sound state and a safe run, in the terms the statements use. -/

namespace Sys2Proof.Machine

/-- The state holds memory in its canonical form. -/
abbrev MemoryCanonical (s : State) : Prop := Memory.wf s.cfg.font s.mem

/-- What a fault record says is true of the machine that holds it: the policy is fault, pc is the faulting instruction's
address, and the value is out of range for its reason (10_state.md R32, 60_exceptions.md R230, R232). -/
def FaultRecordSound (s : State) : Prop :=
  ∀ info, s.execState = .faulted info →
    s.cfg.oorPolicy = .fault ∧ info.faultPc = s.pc ∧
    match info.reason with
    | .fetchOutOfRange =>
      0xFFF < info.value.toNat ∧ (info.value.toNat = s.pc.toNat ∨ info.value.toNat = s.pc.toNat + 1)
    | .dataOutOfRange => 0xFFF < info.value.toNat
    | .keyOutOfRange => 0xF < info.value.toNat ∧ info.value.toNat ≤ 0xFF

/-- Memory is canonical and a fault record is true. -/
def Inv (s : State) : Prop := MemoryCanonical s ∧ FaultRecordSound s

/-- pc and every return address stay where a fault-free run can put them: at most 0x10FE (10_state.md R26) and 0x1000. -/
def ControlBounded (s : State) : Prop :=
  s.pc.toNat ≤ 0x10FE ∧ ∀ k : Fin 16, (s.stack.get k).toNat ≤ 0x1000

/-- A run is safe as long as the core is not Faulted (10_state.md R31). -/
def Safe (s : State) : Prop := ∀ info, s.execState ≠ .faulted info

/-- No step changes the state, other than the record of the latest redraw result (70_reset_and_hazards.md R285; log 3). It is
stated of the step's effect, so it also holds of a running core whose word is Bnnn with nnn + V0 = pc, a self-jump that R285's
list (c) neither names nor shuts out (DESIGN CHOICE, log 16). -/
def Parked (s : State) : Prop := step s = .next { s with redraw := false }

/-! ## Terms of the per-instruction statements -/

/-- Every byte of memory reads as before. -/
def SameMemory (s t : State) : Prop := ∀ a, t.byteAt a = s.byteAt a

/-- The frame of an instruction that writes general registers only: pc advances, the step returns redraw = false, and
everything but `v` is unchanged. -/
def RegistersOnly (s t : State) : Prop :=
  t = { s with v := t.v, pc := s.pc + 2, redraw := false } ∧ SameMemory s t

/-- The frame of an instruction that writes pc only. -/
def PcOnly (s t : State) : Prop := t = { s with pc := t.pc, redraw := false } ∧ SameMemory s t

/-- The frame of an instruction that writes memory only: everything but `mem` is unchanged and pc advances. Which bytes
may differ is said beside it. -/
def MemoryOnly (s t : State) : Prop := t = { s with mem := t.mem, pc := s.pc + 2, redraw := false }

/-- Byte `k` of a data transfer through I reaches address `a`: the range check of `I + k` answers `a`. -/
def State.reaches (s : State) (k a : Nat) : Prop :=
  rangeCheck s.cfg.oorPolicy .dataOutOfRange (s.dataAddr k) = .ok a

/-- All `n` bytes from I up can be accessed (20_memory.md R55): the policy is wrap, or the last lies in memory. -/
def State.accessible (s : State) (n : Nat) : Prop :=
  s.cfg.oorPolicy = .wrap ∨ s.index.toNat + n ≤ 4096

/-- A transfer of `n` bytes from I up raises: the policy is fault and the last byte lies past the end of memory. -/
def State.inaccessible (s : State) (n : Nat) : Prop :=
  s.cfg.oorPolicy = .fault ∧ 0 < n ∧ 4096 < s.index.toNat + n

/-- The state after a data access of `s` raised: the record names the first address out of range, `I` itself or 0x1000
(60_exceptions.md R230, R232). -/
def State.dataFaulted (s : State) : State :=
  { s with execState := .faulted ⟨.dataOutOfRange, s.pc, BitVec.ofNat 16 (max s.index.toNat 0x1000)⟩, redraw := false }

/-- The sprite bit in row `r` and column `c` of the sprite at I: bit 7 of a byte is column 0 (44_display.md R194). -/
def State.spriteAt (s : State) (r c : Nat) : Bool := (s.byteAt ((s.index.toNat + r) % 4096)).getLsbD (7 - c)

/-- The pixel of `s` that the sprite bit in row `r` and column `c` lands on, drawn at (Vx, Vy) (44_display.md R193). -/
def State.target (s : State) (x y : RegIdx) (r c : Nat) : Fin 64 × Fin 32 :=
  (wrapX ((s.reg x).toNat + c), wrapY ((s.reg y).toNat + r))

/-- A pixel's value. -/
def State.pixelAt (s : State) (p : Fin 64 × Fin 32) : Bool := Framebuffer.pixel s.fb p.1 p.2

/-- Some 1 bit of the sprite lands on a pixel that is 1 (44_display.md R192). -/
def State.collides (s : State) (x y : RegIdx) (n : Nat) : Prop :=
  ∃ r c, r < n ∧ c < 8 ∧ s.spriteAt r c = true ∧ s.pixelAt (s.target x y r c) = true

/-- The words of `i` are those with `w & mask = pattern`: its own word is one and decodes to it (30_encoding.md R85). -/
def encodedAs (i : Instr) (pattern mask : Word) : Prop :=
  encodeWord i &&& mask = pattern ∧ decodeWord (encodeWord i) = some i

/-- The general registers an instruction may write, as a result or as the flag (10_state.md R22, R38). -/
def writesReg (i : Instr) (z : RegIdx) : Prop :=
  match i with
  | .ldImm x _ | .addImm x _ | .rnd x _ => z = x
  | .ldReg x _ | .orReg x _ | .andReg x _ | .xorReg x _ => z = x
  | .addReg x _ | .subReg x _ | .shr x _ | .subn x _ | .shl x _ => z = x ∨ z = vf
  | .ldVxDt x => z = x
  | .ldRegs x => z ≤ x
  | .drw _ _ _ => z = vf
  | .cls | .ret | .jp _ | .call _ | .seImm _ _ | .sneImm _ _ | .seReg _ _ | .sneReg _ _ => False
  | .ldI _ | .jpV0 _ | .skp _ | .sknp _ | .ldDtVx _ | .ldStVx _ | .ldVxK _ => False
  | .addI _ | .ldF _ | .ldB _ | .stRegs _ => False

end Sys2Proof.Machine
end

