-- ==== Sys2Proof/Certificates/Slice0/Obligations.lean ====
section
/-! DEFINITION. The statements about the model, for the provers. `s` is the state before the step, `t` the state after.
Where a statement rests on a choice the spec marks as its own, the docstring names it. -/

open Sys2Proof Sys2Proof.Machine

/-! ## Encoding -/

/-- 30_encoding.md R81, R82, R85: every well-formed instruction's bytes decode to it, every operand included, and decoding
leaves the bytes after it. -/
def Obligations.DecodeOfEncodeIsIdentity : Prop :=
  ∀ (i : Instr) (rest : List Byte), i.wellFormed = true → decode (encode i ++ rest) = .instr i rest

/-- The converse: what the decoder reads is well-formed, and its bytes are exactly those of its encoding, so that no bit of
a recognized word is dropped (30_encoding.md R86, R87). -/
def Obligations.DecodedBytesAreTheEncoding : Prop :=
  ∀ (bytes rest : List Byte) (i : Instr), decode bytes = .instr i rest →
    i.wellFormed = true ∧ bytes = encode i ++ rest

/-- 30_encoding.md R85, R86: `decode(w)` is the row `r` with `w & r.mask = r.match`, or Unrecognized if no row matches; the
map has 34 rows, and no word matches two of them (the disjointness is marked in R86 as derived). -/
def Obligations.DecodeFollowsTheOpcodeMap : Prop :=
  ∀ w : Word,
    (∀ i, decodeWord w = some i → ∃ r, i.row? = some r ∧ r.selectedBy w) ∧
    (decodeWord w = none ↔ ∀ r ∈ opcodeTable, ¬ r.selectedBy w) ∧
    opcodeTable.length = 34 ∧
    ∀ (j k : Nat) (q r : OpcodeRow), opcodeTable[j]? = some q → opcodeTable[k]? = some r →
      q.selectedBy w → r.selectedBy w → j = k

/-- 30_encoding.md R88 (marked there as derived; its counts are not stated): the unrecognized words, family by family. -/
def Obligations.UnrecognizedWordsByFamily : Prop :=
  ∀ w : Word, decodeWord w = none ↔
    (w.toNat / 4096 = 0x0 ∧ w.toNat ≠ 0x0E0 ∧ w.toNat ≠ 0x0EE) ∨
    (w.toNat / 4096 = 0x5 ∧ w.toNat % 16 ≠ 0) ∨
    (w.toNat / 4096 = 0x8 ∧ w.toNat % 16 ∈ [0x8, 0x9, 0xA, 0xB, 0xC, 0xD, 0xF]) ∨
    (w.toNat / 4096 = 0x9 ∧ w.toNat % 16 ≠ 0) ∨
    (w.toNat / 4096 = 0xE ∧ w.toNat % 256 ≠ 0x9E ∧ w.toNat % 256 ≠ 0xA1) ∨
    (w.toNat / 4096 = 0xF ∧ w.toNat % 256 ∉ [0x07, 0x0A, 0x15, 0x18, 0x1E, 0x29, 0x33, 0x55, 0x65])

/-- A few words written out from the patterns of 30_encoding.md R85 decode to the instructions they stand for. -/
def Obligations.WordsFromTheSpecDecode : Prop :=
  decodeTableWord 16 0b0000000011100000 = some .cls ∧
  decodeTableWord 16 0b0010001000010000 = some (.call 0x210) ∧
  decodeTableWord 16 0b1000000100100100 = some (.addReg 0x1 0x2) ∧
  decodeTableWord 16 0b1010001011110000 = some (.ldI 0x2F0) ∧
  decodeTableWord 16 0b1101000000010010 = some (.drw 0x0 0x1 2) ∧
  decodeTableWord 16 0b1110000110011110 = some (.skp 0x1) ∧
  decodeTableWord 16 0b1111001001100101 = some (.ldRegs 0x2)

/-! ## The step cycle -/

/-- A running core whose pc and pc + 1 lie in memory fetches the two bytes there, the one at pc first, and a step is exec of
the instruction they decode to: the step adds nothing around it, since a meaning makes the advance itself (log 27). The word
placed by `withFetchWord` is the one the next step runs, from every state and configuration (log 24). -/
def Obligations.StepRunsTheDecodedInstruction : Prop :=
  ∀ (s : State),
    (s.pc.toNat + 1 < 4096 → s.fetchBytes = .ok [s.byteAt s.pc.toNat, s.byteAt (s.pc.toNat + 1)]) ∧
    (s.cfg.oorPolicy = .wrap →
      s.fetchBytes = .ok [s.byteAt (s.pc.toNat % 4096), s.byteAt ((s.pc.toNat + 1) % 4096)]) ∧
    (∀ bytes i rest, s.execState = .running → s.fetchBytes = .ok bytes → decode bytes = .instr i rest →
      step s = exec i s) ∧
    ∀ w i, decodeTableWord 16 w = some i → step (s.withFetchWord 16 w) = exec i (s.withFetchWord 16 w)

/-- 30_encoding.md R89 (marked there as derived): an unrecognized word changes only pc, by the advance, and returns
redraw = false. -/
def Obligations.UnrecognizedWordOnlyAdvances : Prop :=
  ∀ (s : State) (bytes : List Byte) (why : DecodeError),
    s.execState = .running → s.fetchBytes = .ok bytes → decode bytes = .rejected why →
    step s = .next { s with pc := s.pc + 2, redraw := false }

/-- 40_execution_cycle.md R102, R108, 60_exceptions.md R230 (the spec's decisions D2, D19, log 7): under policy fault a
fetch that leaves memory enters Faulted with the first byte address out of range, and changes nothing else. -/
def Obligations.FetchOutsideMemoryIsTaken : Prop :=
  ∀ s : State, s.cfg.oorPolicy = .fault → s.execState = .running → 0xFFE < s.pc.toNat →
    step s = .next { s with
      execState := .faulted ⟨.fetchOutOfRange, s.pc, if s.pc = 0x0FFF then 0x1000 else s.pc⟩, redraw := false }

/-- 40_execution_cycle.md R109 and R108 together: every step answers a next state; the machine has no other stop. -/
def Obligations.EveryStepAnswersNext : Prop :=
  (∀ s : State, ∃ t, step s = .next t) ∧ ∀ (i : Instr) (s : State), ∃ t, exec i s = .next t

/-- 40_execution_cycle.md R107: what a running step returns as redraw. -/
def Obligations.RedrawAfterDisplayInstructionsOnly : Prop :=
  ∀ (s t : State) (bytes rest : List Byte) (i : Instr),
    s.execState = .running → s.fetchBytes = .ok bytes → decode bytes = .instr i rest → step s = .next t →
    (t.redraw = true ↔ Safe t ∧ (i = .cls ∨ ∃ x y n, i = .drw x y n))

/-- 40_execution_cycle.md R108, 60_exceptions.md R232 (the spec's decision D19, log 7): a step that enters Faulted commits
nothing; the record holds the instruction's address; it happens under policy fault alone. -/
def Obligations.RaisingStepCommitsNothing : Prop :=
  ∀ (s t : State) (info : FaultInfo),
    s.execState = .running → step s = .next t → t.execState = .faulted info →
    t = { s with execState := .faulted info, redraw := false } ∧ info.faultPc = s.pc ∧ s.cfg.oorPolicy = .fault

/-! ## Invariants and whole-machine rules -/

/-- The reset state meets the invariants. That no return address exceeds 0x1000 rests on the zeros of the spec's decision D14
(log 4), and the canonical form of memory is the model's choice (log 26). -/
def Obligations.ResetMeetsTheInvariants : Prop :=
  Inv State.reset ∧ ControlBounded State.reset

/-- Every step keeps memory canonical and the fault record true, from every state that has them. -/
def Obligations.StepKeepsMemoryCanonicalAndRecordTrue : Prop :=
  ∀ s t : State, Inv s → step s = .next t → Inv t

/-- Every host operation keeps them, a load, a key event and a reset under either RESET_VALUES included. -/
def Obligations.HostOperationsKeepTheInvariant : Prop :=
  ∀ (op : HostOp) (s t : State) (r : HostResult), Inv s → hostOp op s = .next (t, r) → Inv t

/-- 10_state.md R26 (marked there as derived): under policy fault pc never exceeds 0x10FE, as an invariant of every step. -/
def Obligations.StepKeepsPcBounded : Prop :=
  ∀ s t : State, s.cfg.oorPolicy = .fault → ControlBounded s → step s = .next t → ControlBounded t

/-- Whole-machine rule: which instructions can change which state. The key latch and the configuration (log 1) no instruction
changes. The clauses on fb, I and the timers follow 10_state.md R34, R23, R29, R30; those on the stack and SP rest on R28 and
that on memory on 20_memory.md R53, both marked there as derived. `freeCount` is the model's own counter of draws (log 2; one
draw for each Cxnn is the spec's decision D17), and entering Faulted is the spec's decision D19 (log 7). -/
def Obligations.OnlyTheNamedInstructionsWrite : Prop :=
  ∀ (i : Instr) (s t : State), exec i s = .next t →
    t.key = s.key ∧ t.cfg = s.cfg ∧
    (t.fb ≠ s.fb → i = .cls ∨ ∃ x y n, i = .drw x y n) ∧
    (t.stack ≠ s.stack ∨ t.sp ≠ s.sp → i = .ret ∨ ∃ nnn, i = .call nnn) ∧
    (t.dt ≠ s.dt → ∃ x, i = .ldDtVx x) ∧
    (t.st ≠ s.st → ∃ x, i = .ldStVx x) ∧
    (t.mem ≠ s.mem → (∃ x, i = .ldB x) ∨ ∃ x, i = .stRegs x) ∧
    (t.index ≠ s.index → (∃ nnn, i = .ldI nnn) ∨ (∃ x, i = .addI x) ∨ ∃ x, i = .ldF x) ∧
    (t.freeCount ≠ s.freeCount ↔ ∃ x nn, i = .rnd x nn) ∧
    (t.execState ≠ s.execState → (∃ x, i = .ldVxK x) ∨ ∃ info, t.execState = .faulted info)

/-- 10_state.md R22, R38 (R22 marked there as derived; no flag from the others is the spec's decision D6, log 12): a
register that changes is one the instruction is listed to write. -/
def Obligations.OnlyTheListedRegistersChange : Prop :=
  ∀ (i : Instr) (s t : State) (z : RegIdx), exec i s = .next t → t.reg z ≠ s.reg z → writesReg i z

/-- 42_register_alu.md R160, 40_execution_cycle.md R100: the draw is used only if the instruction is Cxnn. -/
def Obligations.DrawMattersToRndOnly : Prop :=
  ∀ (s : State) (r r' : Byte),
    (∀ bytes rest x nn, s.fetchBytes = .ok bytes → decode bytes ≠ .instr (.rnd x nn) rest) →
    hostOp (.step r) s = hostOp (.step r') s

/-! ## Control transfer (41_control_flow.md) -/

/-- R123. -/
def Obligations.JumpSetsPc : Prop :=
  ∀ (s : State) (nnn : BitVec 12),
    encodedAs (.jp nnn) 0x1000 0xF000 ∧
    ∃ t, exec (.jp nnn) s = .next t ∧ PcOnly s t ∧ t.pc.toNat = nnn.toNat

/-- R126: the sum is not truncated to 12 bits (the spec's decision D30, log 19). -/
def Obligations.JumpWithOffsetAddsV0 : Prop :=
  ∀ (s : State) (nnn : BitVec 12),
    encodedAs (.jpV0 nnn) 0xB000 0xF000 ∧
    ∃ t, exec (.jpV0 nnn) s = .next t ∧ PcOnly s t ∧ t.pc.toNat = nnn.toNat + (s.reg 0).toNat

/-- R124: a call with room pushes the address after it and jumps. -/
def Obligations.CallPushesReturnAddress : Prop :=
  ∀ (s : State) (nnn : BitVec 12), s.sp.val < 16 →
    encodedAs (.call nnn) 0x2000 0xF000 ∧
    ∃ t, exec (.call nnn) s = .next t ∧
      t = { s with stack := t.stack, sp := t.sp, pc := t.pc, redraw := false } ∧ SameMemory s t ∧
      t.pc.toNat = nnn.toNat ∧ t.sp.val = s.sp.val + 1 ∧
      ∀ k : Fin 16, t.stack.get k = if k.val = s.sp.val then s.pc + 2 else s.stack.get k

/-- R121: a return with an entry pops it; the entries stay. -/
def Obligations.ReturnPopsIntoPc : Prop :=
  ∀ s : State, 0 < s.sp.val →
    encodedAs .ret 0x00EE 0xFFFF ∧
    ∃ t, exec .ret s = .next t ∧ t = { s with sp := t.sp, pc := t.pc, redraw := false } ∧ SameMemory s t ∧
      t.sp.val + 1 = s.sp.val ∧ ∀ k : Fin 16, k.val = t.sp.val → t.pc = s.stack.get k

/-- R122, R125 (silent by the spec's decision D9, log 15): a call on a full stack and a return on an empty one only
advance. -/
def Obligations.FullCallAndEmptyReturnOnlyAdvance : Prop :=
  ∀ (s : State) (nnn : BitVec 12),
    (s.sp.val = 16 → exec (.call nnn) s = .next { s with pc := s.pc + 2, redraw := false }) ∧
    (s.sp.val = 0 → exec .ret s = .next { s with pc := s.pc + 2, redraw := false })

/-- R127, R128: the skips on an immediate. That a skip adds 2 more to pc is R120, marked there as derived. -/
def Obligations.ImmediateSkips : Prop :=
  ∀ (s : State) (x : RegIdx) (nn : Byte),
    encodedAs (.seImm x nn) 0x3000 0xF000 ∧ encodedAs (.sneImm x nn) 0x4000 0xF000 ∧
    (∃ t, exec (.seImm x nn) s = .next t ∧ PcOnly s t ∧ t.pc = if s.reg x = nn then s.pc + 4 else s.pc + 2) ∧
    ∃ t, exec (.sneImm x nn) s = .next t ∧ PcOnly s t ∧ t.pc = if s.reg x = nn then s.pc + 2 else s.pc + 4

/-- R129, R130: the skips on two registers (R120, marked there as derived). -/
def Obligations.RegisterSkips : Prop :=
  ∀ (s : State) (x y : RegIdx),
    encodedAs (.seReg x y) 0x5000 0xF00F ∧ encodedAs (.sneReg x y) 0x9000 0xF00F ∧
    (∃ t, exec (.seReg x y) s = .next t ∧ PcOnly s t ∧ t.pc = if s.reg x = s.reg y then s.pc + 4 else s.pc + 2) ∧
    ∃ t, exec (.sneReg x y) s = .next t ∧ PcOnly s t ∧ t.pc = if s.reg x = s.reg y then s.pc + 2 else s.pc + 4

/-- 40_execution_cycle.md R101 and 70_reset_and_hazards.md R285 (the spec's decisions D10 and D28, log 16): a step changes no
state, and returns redraw = false, in the parked states: a Faulted core, a waiting core, and a running core whose fetched word
is a jump to itself. -/
def Obligations.ParkedStates : Prop :=
  ∀ s : State,
    ((∃ info, s.execState = .faulted info) → Parked s) ∧
    ((∃ x, s.execState = .waitingForKey x) → Parked s) ∧
    (∀ bytes rest nnn, s.execState = .running → s.fetchBytes = .ok bytes → decode bytes = .instr (.jp nnn) rest →
      nnn.toNat = s.pc.toNat → Parked s)

/-! ## Register loads, ALU and random (42_register_alu.md) -/

/-- R141. -/
def Obligations.LoadImmediate : Prop :=
  ∀ (s : State) (x : RegIdx) (nn : Byte),
    encodedAs (.ldImm x nn) 0x6000 0xF000 ∧
    ∃ t, exec (.ldImm x nn) s = .next t ∧ RegistersOnly s t ∧ ∀ z, t.reg z = if z = x then nn else s.reg z

/-- R142 to R146: no flag is written (the spec's decision D6, log 12). -/
def Obligations.AddImmediateCopyAndLogicSetNoFlag : Prop :=
  ∀ (s : State) (x y : RegIdx) (nn : Byte),
    encodedAs (.addImm x nn) 0x7000 0xF000 ∧
    encodedAs (.ldReg x y) 0x8000 0xF00F ∧ encodedAs (.orReg x y) 0x8001 0xF00F ∧
    encodedAs (.andReg x y) 0x8002 0xF00F ∧ encodedAs (.xorReg x y) 0x8003 0xF00F ∧
    (∃ t, exec (.addImm x nn) s = .next t ∧ RegistersOnly s t ∧
      (t.reg x).toNat = ((s.reg x).toNat + nn.toNat) % 256 ∧ ∀ z, z ≠ x → t.reg z = s.reg z) ∧
    (∃ t, exec (.ldReg x y) s = .next t ∧ RegistersOnly s t ∧
      ∀ z, t.reg z = if z = x then s.reg y else s.reg z) ∧
    (∃ t, exec (.orReg x y) s = .next t ∧ RegistersOnly s t ∧
      ∀ z, t.reg z = if z = x then s.reg x ||| s.reg y else s.reg z) ∧
    (∃ t, exec (.andReg x y) s = .next t ∧ RegistersOnly s t ∧
      ∀ z, t.reg z = if z = x then s.reg x &&& s.reg y else s.reg z) ∧
    ∃ t, exec (.xorReg x y) s = .next t ∧ RegistersOnly s t ∧
      ∀ z, t.reg z = if z = x then s.reg x ^^^ s.reg y else s.reg z

/-- R147: with x = F the carry replaces the sum (VF written last is the spec's decision D5, log 11). -/
def Obligations.AddSetsCarryLast : Prop :=
  ∀ (s : State) (x y : RegIdx),
    encodedAs (.addReg x y) 0x8004 0xF00F ∧
    ∃ t, exec (.addReg x y) s = .next t ∧ RegistersOnly s t ∧
      t.reg vf = (if 255 < (s.reg x).toNat + (s.reg y).toNat then 1 else 0) ∧
      (x ≠ vf → (t.reg x).toNat = ((s.reg x).toNat + (s.reg y).toNat) % 256) ∧
      ∀ z, z ≠ x → z ≠ vf → t.reg z = s.reg z

/-- R148, R150: the flag is the STRICT comparison before the operation (90_conflicts.md C4, log 17), written last (the spec's
decision D5, log 11). -/
def Obligations.SubtractsSetStrictFlagLast : Prop :=
  ∀ (s : State) (x y : RegIdx),
    encodedAs (.subReg x y) 0x8005 0xF00F ∧ encodedAs (.subn x y) 0x8007 0xF00F ∧
    (∃ t, exec (.subReg x y) s = .next t ∧ RegistersOnly s t ∧
      t.reg vf = (if (s.reg y).toNat < (s.reg x).toNat then 1 else 0) ∧
      (x ≠ vf → (t.reg x).toNat = (256 + (s.reg x).toNat - (s.reg y).toNat) % 256) ∧
      ∀ z, z ≠ x → z ≠ vf → t.reg z = s.reg z) ∧
    ∃ t, exec (.subn x y) s = .next t ∧ RegistersOnly s t ∧
      t.reg vf = (if (s.reg x).toNat < (s.reg y).toNat then 1 else 0) ∧
      (x ≠ vf → (t.reg x).toNat = (256 + (s.reg y).toNat - (s.reg x).toNat) % 256) ∧
      ∀ z, z ≠ x → z ≠ vf → t.reg z = s.reg z

/-- R149, R151 under both values of SHIFT_SOURCE (the spec's decision D4, log 10): logical shifts by one, the bit shifted out
written to VF last (D5, log 11). -/
def Obligations.ShiftsByOneSetFlagLast : Prop :=
  ∀ (s : State) (x y src : RegIdx), src = (if s.cfg.shiftSource = .vx then x else y) →
    encodedAs (.shr x y) 0x8006 0xF00F ∧ encodedAs (.shl x y) 0x800E 0xF00F ∧
    (∃ t, exec (.shr x y) s = .next t ∧ RegistersOnly s t ∧
      (t.reg vf).toNat = (s.reg src).toNat % 2 ∧
      (x ≠ vf → (t.reg x).toNat = (s.reg src).toNat / 2) ∧
      ∀ z, z ≠ x → z ≠ vf → t.reg z = s.reg z) ∧
    ∃ t, exec (.shl x y) s = .next t ∧ RegistersOnly s t ∧
      (t.reg vf).toNat = (s.reg src).toNat / 128 ∧
      (x ≠ vf → (t.reg x).toNat = (s.reg src).toNat * 2 % 256) ∧
      ∀ z, z ≠ x → z ≠ vf → t.reg z = s.reg z

/-- R161, R160: the draw masked by nn, whatever the draw is; one draw is taken and nothing else changes (the draw as a free
value of the model: the spec's decision D17, log 2; no flag: D6, log 12). -/
def Obligations.RandomIsMaskedDraw : Prop :=
  ∀ (s : State) (x : RegIdx) (nn : Byte),
    encodedAs (.rnd x nn) 0xC000 0xF000 ∧
    ∃ t, exec (.rnd x nn) s = .next t ∧ SameMemory s t ∧
      t = { s with v := t.v, pc := s.pc + 2, redraw := false, draw := none, freeCount := s.freeCount + 1 } ∧
      (∀ z, t.reg z = if z = x then s.randomByte &&& nn else s.reg z) ∧ t.reg x &&& ~~~nn = 0

/-- R160, R161 at the host's interface: a step that runs Cxnn uses the draw the host gave with it, for every draw. -/
def Obligations.HostDrawReachesRnd : Prop :=
  ∀ (s : State) (r nn : Byte) (x : RegIdx) (bytes rest : List Byte),
    s.execState = .running → s.fetchBytes = .ok bytes → decode bytes = .instr (.rnd x nn) rest →
    ∃ t, hostOp (.step r) s = .next (t, .redraw false) ∧
      (∀ z, t.reg z = if z = x then r &&& nn else s.reg z) ∧ t.pc = s.pc + 2

/-! ## Index register and memory (43_index_memory.md) -/

/-- R170, R172. -/
def Obligations.IndexLoads : Prop :=
  ∀ (s : State) (nnn : BitVec 12) (x : RegIdx),
    encodedAs (.ldI nnn) 0xA000 0xF000 ∧ encodedAs (.ldF x) 0xF029 0xF0FF ∧
    (∃ t, exec (.ldI nnn) s = .next t ∧ t = { s with index := t.index, pc := s.pc + 2, redraw := false } ∧
      SameMemory s t ∧ t.index.toNat = nnn.toNat) ∧
    ∃ t, exec (.ldF x) s = .next t ∧ t = { s with index := t.index, pc := s.pc + 2, redraw := false } ∧
      SameMemory s t ∧ t.index.toNat = 0x50 + (s.reg x).toNat % 16 * 5

/-- R171: modulo 2^16, no flag (the spec's decision D6, log 12). -/
def Obligations.IndexAddWraps : Prop :=
  ∀ (s : State) (x : RegIdx),
    encodedAs (.addI x) 0xF01E 0xF0FF ∧
    ∃ t, exec (.addI x) s = .next t ∧ t = { s with index := t.index, pc := s.pc + 2, redraw := false } ∧
      SameMemory s t ∧ t.index.toNat = (s.index.toNat + (s.reg x).toNat) % 65536

/-- R173 where the three bytes can be accessed, under both policies (the policies are the spec's decision D2): the digits
are stored at the addresses the range check answers for I, I + 1, I + 2, and every other byte and I are unchanged. -/
def Obligations.BcdStoresDecimalDigits : Prop :=
  ∀ (s : State) (x : RegIdx), s.accessible 3 →
    encodedAs (.ldB x) 0xF033 0xF0FF ∧
    ∃ t, exec (.ldB x) s = .next t ∧ MemoryOnly s t ∧
      (∀ a, s.reaches 0 a → (t.byteAt a).toNat = (s.reg x).toNat / 100) ∧
      (∀ a, s.reaches 1 a → (t.byteAt a).toNat = (s.reg x).toNat / 10 % 10) ∧
      (∀ a, s.reaches 2 a → (t.byteAt a).toNat = (s.reg x).toNat % 10) ∧
      ∀ a, (∀ k, k < 3 → ¬ s.reaches k a) → t.byteAt a = s.byteAt a

/-- R174 where the x + 1 bytes can be accessed, under both policies (D2); I is unchanged (the spec's decision D7, log 13). -/
def Obligations.StoreRegistersFromIndexUp : Prop :=
  ∀ (s : State) (x : RegIdx), s.accessible (x.val + 1) →
    encodedAs (.stRegs x) 0xF055 0xF0FF ∧
    ∃ t, exec (.stRegs x) s = .next t ∧ MemoryOnly s t ∧
      (∀ (k : RegIdx) (a : Nat), k ≤ x → s.reaches k.val a → t.byteAt a = s.reg k) ∧
      ∀ a, (∀ k, k ≤ x.val → ¬ s.reaches k a) → t.byteAt a = s.byteAt a

/-- R175 where the x + 1 bytes can be accessed, under both policies (D2); I is unchanged (the spec's decision D7, log 13). -/
def Obligations.LoadRegistersFromIndexUp : Prop :=
  ∀ (s : State) (x : RegIdx), s.accessible (x.val + 1) →
    encodedAs (.ldRegs x) 0xF065 0xF0FF ∧
    ∃ t, exec (.ldRegs x) s = .next t ∧ RegistersOnly s t ∧
      (∀ (k : RegIdx) (a : Nat), k ≤ x → s.reaches k.val a → t.reg k = s.byteAt a) ∧
      ∀ k : RegIdx, x < k → t.reg k = s.reg k

/-- R173, R174, R175, 44_display.md R191, exceptions (the spec's decisions D2, D19, log 7): where some byte lies past the end
of memory under policy fault, the exception is taken with the first such address and no byte, register or pixel changes. -/
def Obligations.DataOutsideMemoryIsTaken : Prop :=
  ∀ (s : State) (x y : RegIdx) (n : Nat),
    (s.inaccessible 3 → exec (.ldB x) s = .next s.dataFaulted) ∧
    (s.inaccessible (x.val + 1) → exec (.stRegs x) s = .next s.dataFaulted) ∧
    (s.inaccessible (x.val + 1) → exec (.ldRegs x) s = .next s.dataFaulted) ∧
    (n ≤ 15 → s.inaccessible n → exec (.drw x y n) s = .next s.dataFaulted)

/-- R175 (marked there as derived): Fx55 and then Fx65 with the same x and I restore every register. -/
def Obligations.StoreThenLoadRestoresRegisters : Prop :=
  ∀ (s : State) (x : RegIdx), s.accessible (x.val + 1) →
    ∃ t u, exec (.stRegs x) s = .next t ∧ exec (.ldRegs x) t = .next u ∧ u.index = s.index ∧
      ∀ z, u.reg z = s.reg z

/-- 70_reset_and_hazards.md R281, 20_memory.md R64 (the spec's decision D22): a word stored over the next instruction is the
word the next step fetches. -/
def Obligations.StoredWordIsFetchedNext : Prop :=
  ∀ s : State, s.pc.toNat + 3 < 4096 → s.index = s.pc + 2 →
    ∃ t, exec (.stRegs 1) s = .next t ∧ t.fetchBytes = .ok [s.reg 0, s.reg 1]

/-! ## Display (44_display.md) -/

/-- R190. -/
def Obligations.ClearZeroesEveryPixel : Prop :=
  ∀ s : State, encodedAs .cls 0x00E0 0xFFFF ∧
    ∃ t, exec .cls s = .next t ∧ t = { s with fb := t.fb, pc := s.pc + 2, redraw := true } ∧ SameMemory s t ∧
      ∀ p, t.pixelAt p = false

/-- R191 to R195 where the n bytes can be accessed, under both policies: each pixel under the sprite is the exclusive-or of
its old value and the sprite bit, every other pixel is kept, and VF is the collision flag, written last (the spec's decisions
D2, D5, D11, D12, log 9, log 11). -/
def Obligations.DrawXorsSpriteAndFlagsCollision : Prop :=
  ∀ (s : State) (x y : RegIdx) (n : Nat), n ≤ 15 → s.accessible n →
    encodedAs (.drw x y n) 0xD000 0xF000 ∧
    ∃ t, exec (.drw x y n) s = .next t ∧
      t = { s with v := t.v, fb := t.fb, pc := s.pc + 2, redraw := true } ∧ SameMemory s t ∧
      (∀ z, z ≠ vf → t.reg z = s.reg z) ∧
      (∀ r c, r < n → c < 8 →
        t.pixelAt (s.target x y r c) = (s.pixelAt (s.target x y r c) ^^ s.spriteAt r c)) ∧
      (∀ p, (∀ r c, r < n → c < 8 → p ≠ s.target x y r c) → t.pixelAt p = s.pixelAt p) ∧
      (s.collides x y n → t.reg vf = 1) ∧ (¬ s.collides x y n → t.reg vf = 0)

/-- R192, R196 (marked there as derived): VF is 1 iff the draw erased at least one pixel; a draw of no rows reads no memory,
changes no pixel, clears VF and signals a redraw. -/
def Obligations.FlagIsOneIffADrawErased : Prop :=
  ∀ (s : State) (x y : RegIdx) (n : Nat),
    (∀ t, n ≤ 15 → exec (.drw x y n) s = .next t → t.redraw = true →
      (t.reg vf = 1 ↔ ∃ p, s.pixelAt p = true ∧ t.pixelAt p = false)) ∧
    exec (.drw x y 0) s = .next { s.setReg vf 0 with pc := s.pc + 2, redraw := true }

/-- R197 (marked there as derived): drawing the same sprite twice at the same place restores every pixel, and the second
draw collides iff some 1 bit lands on a pixel that was 0 before the first. R197 assumes the same Vx and Vy in both draws: x = F
and y = F are left out, because the first draw overwrites VF. The bytes' address, their bit order, the policies and the flag
written last are the spec's decisions D11, D12, D2, D5 (log 9, log 7, log 11). -/
def Obligations.DrawingTwiceRestoresPixels : Prop :=
  ∀ (s : State) (x y : RegIdx) (n : Nat), n ≤ 15 → s.accessible n → x ≠ vf → y ≠ vf →
    ∃ t u, exec (.drw x y n) s = .next t ∧ exec (.drw x y n) t = .next u ∧ u.fb = s.fb ∧
      (u.reg vf = 1 ↔
        ∃ r c, r < n ∧ c < 8 ∧ s.spriteAt r c = true ∧ s.pixelAt (s.target x y r c) = false)

/-! ## Keys, timers and wait-for-key (45_timers_input.md) -/

/-- R210, R211, R212 where Vx names a key: in range, or under policy wrap its low nibble (the spec's decision D3). The skip
is R120, marked there as derived. -/
def Obligations.KeyTestsSkip : Prop :=
  ∀ (s : State) (x : RegIdx) (k : KeyCode),
    k.val = (s.reg x).toNat % 16 → (s.reg x).toNat < 16 ∨ s.cfg.oorPolicy = .wrap →
    encodedAs (.skp x) 0xE09E 0xF0FF ∧ encodedAs (.sknp x) 0xE0A1 0xF0FF ∧
    (∃ t, exec (.skp x) s = .next t ∧ PcOnly s t ∧ t.pc = if s.key.get k = true then s.pc + 4 else s.pc + 2) ∧
    ∃ t, exec (.sknp x) s = .next t ∧ PcOnly s t ∧ t.pc = if s.key.get k = true then s.pc + 2 else s.pc + 4

/-- R210, R211, R212, 60_exceptions.md R230 (the spec's decisions D3, D19): where Vx names no key under policy fault, the
exception is taken with the value of Vx. -/
def Obligations.KeyOutOfRangeIsTaken : Prop :=
  ∀ (s : State) (x : RegIdx), s.cfg.oorPolicy = .fault → 0xF < (s.reg x).toNat →
    ∃ info : FaultInfo, info.reason = .keyOutOfRange ∧ info.faultPc = s.pc ∧ info.value.toNat = (s.reg x).toNat ∧
      exec (.skp x) s = .next { s with execState := .faulted info, redraw := false } ∧
      exec (.sknp x) s = .next { s with execState := .faulted info, redraw := false }

/-- R213, R214, and the value Fx18 stores (R215, whose count of tones is SoundTimerTones). -/
def Obligations.TimerReadAndWrites : Prop :=
  ∀ (s : State) (x : RegIdx),
    encodedAs (.ldVxDt x) 0xF007 0xF0FF ∧ encodedAs (.ldDtVx x) 0xF015 0xF0FF ∧
    encodedAs (.ldStVx x) 0xF018 0xF0FF ∧
    (∃ t, exec (.ldVxDt x) s = .next t ∧ RegistersOnly s t ∧ ∀ z, t.reg z = if z = x then s.dt else s.reg z) ∧
    (∃ t, exec (.ldDtVx x) s = .next t ∧ t = { s with dt := s.reg x, pc := s.pc + 2, redraw := false } ∧
      SameMemory s t) ∧
    ∃ t, exec (.ldStVx x) s = .next t ∧ t = { s with st := s.reg x, pc := s.pc + 2, redraw := false } ∧ SameMemory s t

/-- R216: Fx0A enters the wait past its own advance and writes no register. -/
def Obligations.WaitForKeyEntersTheWait : Prop :=
  ∀ (s : State) (x : RegIdx),
    encodedAs (.ldVxK x) 0xF00A 0xF0FF ∧
    ∃ t, exec (.ldVxK x) s = .next t ∧ SameMemory s t ∧
      t = { s with execState := .waitingForKey x, pc := s.pc + 2, redraw := false }

/-! ## Host operations (60_exceptions.md, 20_memory.md, 70_reset_and_hazards.md) -/

/-- R240, R241, in every execution state (the spec's decision D31, log 22): each timer counts down to 0 and stays there, the
tone sounds iff ST was at least 2, and nothing else changes. -/
def Obligations.TickCountsDownAndSounds : Prop :=
  ∀ s : State, ∃ t tone, hostOp .tick s = .next (t, .tone tone) ∧
    t = { s with dt := t.dt, st := t.st } ∧ SameMemory s t ∧
    t.dt.toNat = s.dt.toNat - 1 ∧ t.st.toNat = s.st.toNat - 1 ∧ (tone = true ↔ 2 ≤ s.st.toNat)

/-- 45_timers_input.md R215 (marked there as derived): n ticks that no write interrupts sound the tone ST - 1 times at most,
and exactly that often once ST has run out. -/
def Obligations.SoundTimerTones : Prop :=
  ∀ (s : State) (n : Nat), ∃ t rs, runOps (List.replicate n .tick) s = .next (t, rs) ∧
    t.st.toNat = s.st.toNat - n ∧ t.dt.toNat = s.dt.toNat - n ∧
    rs.count (.tone true) = min n (s.st.toNat - 1)

/-- R244, R245 (latch alone when not waiting: the spec's decision D32; a repeat counts: D16, log 23). -/
def Obligations.KeyDownSetsLatchAndEndsAWait : Prop :=
  ∀ (s : State) (k : KeyCode), ∃ t, hostOp (.keyDown k) s = .next (t, .none) ∧
    t = { s with key := t.key, v := t.v, execState := t.execState } ∧ SameMemory s t ∧
    (∀ j, t.key.get j = if j = k then true else s.key.get j) ∧
    (∀ x, s.execState = .waitingForKey x → t.execState = .running ∧ (t.reg x).toNat = k.val ∧
      ∀ z, z ≠ x → t.reg z = s.reg z) ∧
    ((∀ x, s.execState ≠ .waitingForKey x) → t.execState = s.execState ∧ t.v = s.v)

/-- R246. -/
def Obligations.KeyUpClearsTheLatchOnly : Prop :=
  ∀ (s : State) (k : KeyCode), ∃ t, hostOp (.keyUp k) s = .next (t, .none) ∧
    t = { s with key := t.key } ∧ SameMemory s t ∧ ∀ j, t.key.get j = if j = k then false else s.key.get j

/-- R259, 45_timers_input.md R217: no operation but a key-down and a reset ends a key wait or writes a register or pc
during it. -/
def Obligations.OnlyKeyDownEndsAWait : Prop :=
  ∀ (op : HostOp) (s t : State) (r : HostResult) (x : RegIdx),
    s.execState = .waitingForKey x → hostOp op s = .next (t, r) → op ≠ .reset → (∀ k, op ≠ .keyDown k) →
    t.execState = .waitingForKey x ∧ t.v = s.v ∧ t.index = s.index ∧ t.pc = s.pc ∧ t.stack = s.stack ∧ t.sp = s.sp ∧
      t.fb = s.fb

/-- R233 (the spec's decision D19, log 7): a Faulted core stays Faulted, with its record, registers and pc, through every
operation but reset; and a reset leaves Faulted. -/
def Obligations.FaultedUntilReset : Prop :=
  ∀ (op : HostOp) (s t : State) (r : HostResult) (info : FaultInfo),
    s.execState = .faulted info → hostOp op s = .next (t, r) →
    (op ≠ .reset → t.execState = .faulted info ∧ t.v = s.v ∧ t.index = s.index ∧ t.pc = s.pc) ∧
    (op = .reset → t.execState = .running)

/-- 20_memory.md R66 (at any point: the spec's decision D25, log 24): an image that fits is copied to 0x200 upward and
nothing else changes; one that does not fit changes nothing. -/
def Obligations.LoadCopiesTheImageOrNothing : Prop :=
  ∀ (s : State) (image : List Byte),
    (0x200 + image.length ≤ 4096 → ∃ t, hostOp (.load image) s = .next (t, .loadOk) ∧ t = { s with mem := t.mem } ∧
      (∀ k, k < image.length → t.byteAt (0x200 + k) = image.getD k 0) ∧
      ∀ a, a < 0x200 ∨ 0x200 + image.length ≤ a → t.byteAt a = s.byteAt a) ∧
    (4096 < 0x200 + image.length → hostOp (.load image) s = .next (s, .loadError))

/-- 70_reset_and_hazards.md R270, 10_state.md R40: what reset leaves from every state. pc, Running and the font's place are the
source's; the zeros are the spec's decisions D14 and D15 (log 4, log 5) and hold under RESET_VALUES = zero. State.reset is the
state reset leaves under the default configuration, so that all of this holds of it. -/
def Obligations.ResetLeavesTheListedValues : Prop :=
  (State.reset.cfg = defaultConfig ∧ hostOp .reset State.reset = .next (State.reset, .none)) ∧
  ∀ s : State, ∃ t, hostOp .reset s = .next (t, .none) ∧ t.cfg = s.cfg ∧ t.pc = 0x200 ∧ t.execState = .running ∧
    (∀ j : Fin 80, t.byteAt (0x50 + j.val) = s.cfg.font.get j) ∧
    (s.cfg.resetValues = .zero →
      (∀ z, t.reg z = 0) ∧ t.index = 0 ∧ t.sp = 0 ∧ (∀ k, t.stack.get k = 0) ∧ t.dt = 0 ∧ t.st = 0 ∧
      (∀ p, t.pixelAt p = false) ∧ (∀ k, t.key.get k = false) ∧
      ∀ a, a < 0x50 ∨ 0xA0 ≤ a → t.byteAt a = 0)

/-- 70_reset_and_hazards.md R275 (marked there as derived), of the one state State.reset: with nothing loaded, 1792 steps slide
pc to 0x1000 and step 1793 takes the fetch exception there. That memory holds zeros there rests on the spec's decisions D14 and
D15 (log 5), and the exception on D2 and D19 (log 7). -/
def Obligations.EmptyMemorySlidesThenFaults : Prop :=
  (∀ k, k ≤ 1792 →
    core.run k State.reset = .next { State.reset with pc := BitVec.ofNat 16 (0x200 + 2 * k) }) ∧
  core.run 1793 State.reset = .next { State.reset with
    pc := 0x1000, execState := .faulted ⟨.fetchOutOfRange, 0x1000, 0x1000⟩ }

/-- R250, 10_state.md R31, R32: the reading operations return what they name and change nothing. -/
def Obligations.ReadersChangeNothing : Prop :=
  ∀ s : State, hostOp .readFb s = .next (s, .snapshot s.fb) ∧ hostOp .readStatus s = .next (s, .status s.execState)
end

