-- ==== Sys2Proof/Laws/Decode.lean ====
section
/-! SUPPORT. The fields of an encoded word, format by format (30_encoding.md R81, R82), and a word as its bytes. -/

namespace Sys2Proof

theorem toNat_append_eq {n m : Nat} (a : BitVec n) (b : BitVec m) :
    (a ++ b).toNat = a.toNat * 2 ^ m + b.toNat := by
  rw [BitVec.toNat_append, ← Nat.shiftLeft_add_eq_or_of_lt b.isLt, Nat.shiftLeft_eq]

theorem toNat_nibbles (a b c d : BitVec 4) :
    (nibbles a b c d).toNat = a.toNat * 4096 + b.toNat * 256 + c.toNat * 16 + d.toNat := by
  unfold nibbles
  simp only [toNat_append_eq]
  omega

/-! ## Fields of four nibbles -/

theorem fieldOp_toNat (w : Word) : (fieldOp w).toNat = w.toNat / 4096 % 16 := by
  simp [fieldOp, BitVec.extractLsb'_toNat, Nat.shiftRight_eq_div_pow]

theorem fieldX_val (w : Word) : (fieldX w).val = w.toNat / 256 % 16 := by
  simp [fieldX, Nat.shiftRight_eq_div_pow]

theorem fieldY_val (w : Word) : (fieldY w).val = w.toNat / 16 % 16 := by
  simp [fieldY, Nat.shiftRight_eq_div_pow]

theorem fieldN_eq (w : Word) : fieldN w = w.toNat % 16 := by
  simp [fieldN, BitVec.extractLsb'_toNat]

theorem fieldNN_toNat (w : Word) : (fieldNN w).toNat = w.toNat % 256 := by
  simp [fieldNN, BitVec.extractLsb'_toNat]

theorem fieldNNN_toNat (w : Word) : (fieldNNN w).toNat = w.toNat % 4096 := by
  simp [fieldNNN, BitVec.extractLsb'_toNat]

@[simp] theorem fieldOp_nibbles (a b c d : BitVec 4) : fieldOp (nibbles a b c d) = a := by
  apply BitVec.eq_of_toNat_eq
  rw [fieldOp_toNat, toNat_nibbles]
  omega

@[simp] theorem fieldX_nibbles (a b c d : BitVec 4) : fieldX (nibbles a b c d) = b.toFin := by
  apply Fin.ext
  rw [fieldX_val, toNat_nibbles, BitVec.val_toFin]
  omega

@[simp] theorem fieldY_nibbles (a b c d : BitVec 4) : fieldY (nibbles a b c d) = c.toFin := by
  apply Fin.ext
  rw [fieldY_val, toNat_nibbles, BitVec.val_toFin]
  omega

@[simp] theorem fieldN_nibbles (a b c d : BitVec 4) : fieldN (nibbles a b c d) = d.toNat := by
  rw [fieldN_eq, toNat_nibbles]
  omega

theorem fieldNN_nibbles (a b : BitVec 4) (nn : Byte) :
    fieldNN (nibbles a b (nn.extractLsb' 4 4) (nn.extractLsb' 0 4)) = nn := by
  apply BitVec.eq_of_toNat_eq
  rw [fieldNN_toNat, toNat_nibbles]
  simp only [BitVec.extractLsb'_toNat, Nat.shiftRight_eq_div_pow]
  omega

theorem fieldNNN_nibbles (a : BitVec 4) (nnn : BitVec 12) :
    fieldNNN (nibbles a (nnn.extractLsb' 8 4) (nnn.extractLsb' 4 4) (nnn.extractLsb' 0 4)) = nnn := by
  apply BitVec.eq_of_toNat_eq
  rw [fieldNNN_toNat, toNat_nibbles]
  simp only [BitVec.extractLsb'_toNat, Nat.shiftRight_eq_div_pow]
  omega

/-! ## Fields by format -/

@[simp] theorem toFin_nib (x : RegIdx) : (nib x).toFin = x := rfl

@[simp] theorem fieldOp_encA (op : BitVec 4) (nnn : BitVec 12) : fieldOp (encA op nnn) = op := fieldOp_nibbles ..
@[simp] theorem fieldNNN_encA (op : BitVec 4) (nnn : BitVec 12) : fieldNNN (encA op nnn) = nnn := fieldNNN_nibbles ..
@[simp] theorem fieldOp_encX (op : BitVec 4) (x : RegIdx) (nn : Byte) : fieldOp (encX op x nn) = op := fieldOp_nibbles ..
@[simp] theorem fieldX_encX (op : BitVec 4) (x : RegIdx) (nn : Byte) : fieldX (encX op x nn) = x := fieldX_nibbles ..
@[simp] theorem fieldNN_encX (op : BitVec 4) (x : RegIdx) (nn : Byte) : fieldNN (encX op x nn) = nn := fieldNN_nibbles ..
@[simp] theorem fieldOp_encXY (op : BitVec 4) (x y : RegIdx) (n : BitVec 4) : fieldOp (encXY op x y n) = op := fieldOp_nibbles ..
@[simp] theorem fieldX_encXY (op : BitVec 4) (x y : RegIdx) (n : BitVec 4) : fieldX (encXY op x y n) = x := fieldX_nibbles ..
@[simp] theorem fieldY_encXY (op : BitVec 4) (x y : RegIdx) (n : BitVec 4) : fieldY (encXY op x y n) = y := fieldY_nibbles ..
@[simp] theorem fieldN_encXY (op : BitVec 4) (x y : RegIdx) (n : BitVec 4) : fieldN (encXY op x y n) = n.toNat := fieldN_nibbles ..

/-! ## Words and bytes -/

/-! ## A word from its fields -/

/-- Format A: a word is its family and its 12-bit field. -/
theorem eq_encA (w : Word) : w = encA (fieldOp w) (fieldNNN w) := by
  apply BitVec.eq_of_toNat_eq
  simp only [encA, toNat_nibbles, BitVec.extractLsb'_toNat, fieldOp_toNat, fieldNNN_toNat, Nat.shiftRight_eq_div_pow]
  omega

/-- Formats XK and XF: a word is its family, its x and its low byte. -/
theorem eq_encX (w : Word) : w = encX (fieldOp w) (fieldX w) (fieldNN w) := by
  apply BitVec.eq_of_toNat_eq
  simp only [encX, toNat_nibbles, nib, BitVec.toNat_ofFin, BitVec.extractLsb'_toNat, fieldOp_toNat, fieldX_val,
    fieldNN_toNat, Nat.shiftRight_eq_div_pow]
  omega

/-- Formats XY and XYN: a word is its family, its x, its y and its low nibble. -/
theorem eq_encXY (w : Word) : w = encXY (fieldOp w) (fieldX w) (fieldY w) (BitVec.ofNat 4 (fieldN w)) := by
  apply BitVec.eq_of_toNat_eq
  simp only [encXY, toNat_nibbles, nib, BitVec.toNat_ofFin, BitVec.toNat_ofNat, fieldOp_toNat, fieldX_val, fieldY_val,
    fieldN_eq]
  omega

theorem nibbles_inj {a b c d a' b' c' d' : BitVec 4} (h : nibbles a b c d = nibbles a' b' c' d') :
    a = a' ∧ b = b' ∧ c = c' ∧ d = d' := by
  have := congrArg BitVec.toNat h
  simp only [toNat_nibbles] at this
  refine ⟨?_, ?_, ?_, ?_⟩ <;> apply BitVec.eq_of_toNat_eq <;> omega

/-- A mask that keeps or drops whole nibbles, as every mask of the opcode map does (30_encoding.md R85). -/
theorem and_nibbles (a b c d p q r s : BitVec 4) :
    nibbles a b c d &&& nibbles p q r s = nibbles (a &&& p) (b &&& q) (c &&& r) (d &&& s) := by
  unfold nibbles
  rw [BitVec.and_append, BitVec.and_append, BitVec.and_append]

/-! ## Words as bytes -/

@[simp] theorem wordOfBytes_hi_lo (w : Word) : wordOfBytes (hiByte w) (loByte w) = w := by
  apply BitVec.eq_of_toNat_eq
  simp only [wordOfBytes, hiByte, loByte, toNat_append_eq, BitVec.extractLsb'_toNat, Nat.shiftRight_eq_div_pow]
  omega

/-- Two bytes are a word's bytes exactly when they make that word. -/
theorem bytesOfWord_wordOfBytes (hi lo : Byte) : bytesOfWord (wordOfBytes hi lo) = [hi, lo] := by
  have h : ∀ a b : Byte, hiByte (a ++ b) = a ∧ loByte (a ++ b) = b := by
    intro a b
    constructor <;> apply BitVec.eq_of_toNat_eq <;>
      simp only [hiByte, loByte, toNat_append_eq, BitVec.extractLsb'_toNat, Nat.shiftRight_eq_div_pow] <;> omega
  simp only [bytesOfWord, wordOfBytes, h]

/-- Decoding a word's bytes is decoding the word. -/
theorem decode_bytesOfWord (w : Word) (rest : List Byte) :
    decode (bytesOfWord w ++ rest) =
      match decodeWord w with
      | some i => .instr i rest
      | none => .rejected (.unrecognized w) := by
  cases h : decodeWord w <;> simp [bytesOfWord, decode, h]

end Sys2Proof
end

