-- ==== Sys2Proof/Laws/State.lean ====
section
/-! SUPPORT. One lemma per field per update of State, so that no later proof unfolds a record update; and what a register
reads as after each update. -/

namespace Sys2Proof.Machine

/-! ### setReg -/

@[simp] theorem setReg_index (s : State) (x : RegIdx) (b : Byte) : (s.setReg x b).index = s.index := rfl
@[simp] theorem setReg_pc (s : State) (x : RegIdx) (b : Byte) : (s.setReg x b).pc = s.pc := rfl
@[simp] theorem setReg_stack (s : State) (x : RegIdx) (b : Byte) : (s.setReg x b).stack = s.stack := rfl
@[simp] theorem setReg_sp (s : State) (x : RegIdx) (b : Byte) : (s.setReg x b).sp = s.sp := rfl
@[simp] theorem setReg_dt (s : State) (x : RegIdx) (b : Byte) : (s.setReg x b).dt = s.dt := rfl
@[simp] theorem setReg_st (s : State) (x : RegIdx) (b : Byte) : (s.setReg x b).st = s.st := rfl
@[simp] theorem setReg_execState (s : State) (x : RegIdx) (b : Byte) : (s.setReg x b).execState = s.execState := rfl
@[simp] theorem setReg_mem (s : State) (x : RegIdx) (b : Byte) : (s.setReg x b).mem = s.mem := rfl
@[simp] theorem setReg_fb (s : State) (x : RegIdx) (b : Byte) : (s.setReg x b).fb = s.fb := rfl
@[simp] theorem setReg_key (s : State) (x : RegIdx) (b : Byte) : (s.setReg x b).key = s.key := rfl
@[simp] theorem setReg_cfg (s : State) (x : RegIdx) (b : Byte) : (s.setReg x b).cfg = s.cfg := rfl
@[simp] theorem setReg_redraw (s : State) (x : RegIdx) (b : Byte) : (s.setReg x b).redraw = s.redraw := rfl
@[simp] theorem setReg_draw (s : State) (x : RegIdx) (b : Byte) : (s.setReg x b).draw = s.draw := rfl
@[simp] theorem setReg_freeCount (s : State) (x : RegIdx) (b : Byte) : (s.setReg x b).freeCount = s.freeCount := rfl

/-! ### loadRegs -/

@[simp] theorem loadRegs_index (s : State) (bs : List Byte) : (s.loadRegs bs).index = s.index := rfl
@[simp] theorem loadRegs_pc (s : State) (bs : List Byte) : (s.loadRegs bs).pc = s.pc := rfl
@[simp] theorem loadRegs_stack (s : State) (bs : List Byte) : (s.loadRegs bs).stack = s.stack := rfl
@[simp] theorem loadRegs_sp (s : State) (bs : List Byte) : (s.loadRegs bs).sp = s.sp := rfl
@[simp] theorem loadRegs_dt (s : State) (bs : List Byte) : (s.loadRegs bs).dt = s.dt := rfl
@[simp] theorem loadRegs_st (s : State) (bs : List Byte) : (s.loadRegs bs).st = s.st := rfl
@[simp] theorem loadRegs_execState (s : State) (bs : List Byte) : (s.loadRegs bs).execState = s.execState := rfl
@[simp] theorem loadRegs_mem (s : State) (bs : List Byte) : (s.loadRegs bs).mem = s.mem := rfl
@[simp] theorem loadRegs_fb (s : State) (bs : List Byte) : (s.loadRegs bs).fb = s.fb := rfl
@[simp] theorem loadRegs_key (s : State) (bs : List Byte) : (s.loadRegs bs).key = s.key := rfl
@[simp] theorem loadRegs_cfg (s : State) (bs : List Byte) : (s.loadRegs bs).cfg = s.cfg := rfl
@[simp] theorem loadRegs_redraw (s : State) (bs : List Byte) : (s.loadRegs bs).redraw = s.redraw := rfl
@[simp] theorem loadRegs_draw (s : State) (bs : List Byte) : (s.loadRegs bs).draw = s.draw := rfl
@[simp] theorem loadRegs_freeCount (s : State) (bs : List Byte) : (s.loadRegs bs).freeCount = s.freeCount := rfl

/-! ### setRegThenFlag -/

@[simp] theorem setRegThenFlag_index (s : State) (x : RegIdx) (b : Byte) (f : Bool) : (s.setRegThenFlag x b f).index = s.index := rfl
@[simp] theorem setRegThenFlag_pc (s : State) (x : RegIdx) (b : Byte) (f : Bool) : (s.setRegThenFlag x b f).pc = s.pc := rfl
@[simp] theorem setRegThenFlag_stack (s : State) (x : RegIdx) (b : Byte) (f : Bool) : (s.setRegThenFlag x b f).stack = s.stack := rfl
@[simp] theorem setRegThenFlag_sp (s : State) (x : RegIdx) (b : Byte) (f : Bool) : (s.setRegThenFlag x b f).sp = s.sp := rfl
@[simp] theorem setRegThenFlag_dt (s : State) (x : RegIdx) (b : Byte) (f : Bool) : (s.setRegThenFlag x b f).dt = s.dt := rfl
@[simp] theorem setRegThenFlag_st (s : State) (x : RegIdx) (b : Byte) (f : Bool) : (s.setRegThenFlag x b f).st = s.st := rfl
@[simp] theorem setRegThenFlag_execState (s : State) (x : RegIdx) (b : Byte) (f : Bool) : (s.setRegThenFlag x b f).execState = s.execState := rfl
@[simp] theorem setRegThenFlag_mem (s : State) (x : RegIdx) (b : Byte) (f : Bool) : (s.setRegThenFlag x b f).mem = s.mem := rfl
@[simp] theorem setRegThenFlag_fb (s : State) (x : RegIdx) (b : Byte) (f : Bool) : (s.setRegThenFlag x b f).fb = s.fb := rfl
@[simp] theorem setRegThenFlag_key (s : State) (x : RegIdx) (b : Byte) (f : Bool) : (s.setRegThenFlag x b f).key = s.key := rfl
@[simp] theorem setRegThenFlag_cfg (s : State) (x : RegIdx) (b : Byte) (f : Bool) : (s.setRegThenFlag x b f).cfg = s.cfg := rfl
@[simp] theorem setRegThenFlag_redraw (s : State) (x : RegIdx) (b : Byte) (f : Bool) : (s.setRegThenFlag x b f).redraw = s.redraw := rfl
@[simp] theorem setRegThenFlag_draw (s : State) (x : RegIdx) (b : Byte) (f : Bool) : (s.setRegThenFlag x b f).draw = s.draw := rfl
@[simp] theorem setRegThenFlag_freeCount (s : State) (x : RegIdx) (b : Byte) (f : Bool) : (s.setRegThenFlag x b f).freeCount = s.freeCount := rfl

/-! ### advance -/

@[simp] theorem advance_v (s : State) : (s.advance).v = s.v := rfl
@[simp] theorem advance_index (s : State) : (s.advance).index = s.index := rfl
@[simp] theorem advance_pc (s : State) : (s.advance).pc = s.pc + 2 := rfl
@[simp] theorem advance_stack (s : State) : (s.advance).stack = s.stack := rfl
@[simp] theorem advance_sp (s : State) : (s.advance).sp = s.sp := rfl
@[simp] theorem advance_dt (s : State) : (s.advance).dt = s.dt := rfl
@[simp] theorem advance_st (s : State) : (s.advance).st = s.st := rfl
@[simp] theorem advance_execState (s : State) : (s.advance).execState = s.execState := rfl
@[simp] theorem advance_mem (s : State) : (s.advance).mem = s.mem := rfl
@[simp] theorem advance_fb (s : State) : (s.advance).fb = s.fb := rfl
@[simp] theorem advance_key (s : State) : (s.advance).key = s.key := rfl
@[simp] theorem advance_cfg (s : State) : (s.advance).cfg = s.cfg := rfl
@[simp] theorem advance_redraw (s : State) : (s.advance).redraw = false := rfl
@[simp] theorem advance_draw (s : State) : (s.advance).draw = s.draw := rfl
@[simp] theorem advance_freeCount (s : State) : (s.advance).freeCount = s.freeCount := rfl

/-! ### jump -/

@[simp] theorem jump_v (s : State) (w : Word) : (s.jump w).v = s.v := rfl
@[simp] theorem jump_index (s : State) (w : Word) : (s.jump w).index = s.index := rfl
@[simp] theorem jump_pc (s : State) (w : Word) : (s.jump w).pc = w := rfl
@[simp] theorem jump_stack (s : State) (w : Word) : (s.jump w).stack = s.stack := rfl
@[simp] theorem jump_sp (s : State) (w : Word) : (s.jump w).sp = s.sp := rfl
@[simp] theorem jump_dt (s : State) (w : Word) : (s.jump w).dt = s.dt := rfl
@[simp] theorem jump_st (s : State) (w : Word) : (s.jump w).st = s.st := rfl
@[simp] theorem jump_execState (s : State) (w : Word) : (s.jump w).execState = s.execState := rfl
@[simp] theorem jump_mem (s : State) (w : Word) : (s.jump w).mem = s.mem := rfl
@[simp] theorem jump_fb (s : State) (w : Word) : (s.jump w).fb = s.fb := rfl
@[simp] theorem jump_key (s : State) (w : Word) : (s.jump w).key = s.key := rfl
@[simp] theorem jump_cfg (s : State) (w : Word) : (s.jump w).cfg = s.cfg := rfl
@[simp] theorem jump_redraw (s : State) (w : Word) : (s.jump w).redraw = s.redraw := rfl
@[simp] theorem jump_draw (s : State) (w : Word) : (s.jump w).draw = s.draw := rfl
@[simp] theorem jump_freeCount (s : State) (w : Word) : (s.jump w).freeCount = s.freeCount := rfl

/-! ### setByte -/

@[simp] theorem setByte_v (s : State) (a : Nat) (b : Byte) : (s.setByte a b).v = s.v := rfl
@[simp] theorem setByte_index (s : State) (a : Nat) (b : Byte) : (s.setByte a b).index = s.index := rfl
@[simp] theorem setByte_pc (s : State) (a : Nat) (b : Byte) : (s.setByte a b).pc = s.pc := rfl
@[simp] theorem setByte_stack (s : State) (a : Nat) (b : Byte) : (s.setByte a b).stack = s.stack := rfl
@[simp] theorem setByte_sp (s : State) (a : Nat) (b : Byte) : (s.setByte a b).sp = s.sp := rfl
@[simp] theorem setByte_dt (s : State) (a : Nat) (b : Byte) : (s.setByte a b).dt = s.dt := rfl
@[simp] theorem setByte_st (s : State) (a : Nat) (b : Byte) : (s.setByte a b).st = s.st := rfl
@[simp] theorem setByte_execState (s : State) (a : Nat) (b : Byte) : (s.setByte a b).execState = s.execState := rfl
@[simp] theorem setByte_mem (s : State) (a : Nat) (b : Byte) : (s.setByte a b).mem = Memory.put s.cfg.font s.mem a b := rfl
@[simp] theorem setByte_fb (s : State) (a : Nat) (b : Byte) : (s.setByte a b).fb = s.fb := rfl
@[simp] theorem setByte_key (s : State) (a : Nat) (b : Byte) : (s.setByte a b).key = s.key := rfl
@[simp] theorem setByte_cfg (s : State) (a : Nat) (b : Byte) : (s.setByte a b).cfg = s.cfg := rfl
@[simp] theorem setByte_redraw (s : State) (a : Nat) (b : Byte) : (s.setByte a b).redraw = s.redraw := rfl
@[simp] theorem setByte_draw (s : State) (a : Nat) (b : Byte) : (s.setByte a b).draw = s.draw := rfl
@[simp] theorem setByte_freeCount (s : State) (a : Nat) (b : Byte) : (s.setByte a b).freeCount = s.freeCount := rfl

/-! ### takeOutOfRange -/

@[simp] theorem takeOutOfRange_v (s : State) (e : OutOfRange) : (s.takeOutOfRange e).v = s.v := rfl
@[simp] theorem takeOutOfRange_index (s : State) (e : OutOfRange) : (s.takeOutOfRange e).index = s.index := rfl
@[simp] theorem takeOutOfRange_pc (s : State) (e : OutOfRange) : (s.takeOutOfRange e).pc = s.pc := rfl
@[simp] theorem takeOutOfRange_stack (s : State) (e : OutOfRange) : (s.takeOutOfRange e).stack = s.stack := rfl
@[simp] theorem takeOutOfRange_sp (s : State) (e : OutOfRange) : (s.takeOutOfRange e).sp = s.sp := rfl
@[simp] theorem takeOutOfRange_dt (s : State) (e : OutOfRange) : (s.takeOutOfRange e).dt = s.dt := rfl
@[simp] theorem takeOutOfRange_st (s : State) (e : OutOfRange) : (s.takeOutOfRange e).st = s.st := rfl
@[simp] theorem takeOutOfRange_execState (s : State) (e : OutOfRange) : (s.takeOutOfRange e).execState = .faulted ⟨e.reason, s.pc, e.value⟩ := rfl
@[simp] theorem takeOutOfRange_mem (s : State) (e : OutOfRange) : (s.takeOutOfRange e).mem = s.mem := rfl
@[simp] theorem takeOutOfRange_fb (s : State) (e : OutOfRange) : (s.takeOutOfRange e).fb = s.fb := rfl
@[simp] theorem takeOutOfRange_key (s : State) (e : OutOfRange) : (s.takeOutOfRange e).key = s.key := rfl
@[simp] theorem takeOutOfRange_cfg (s : State) (e : OutOfRange) : (s.takeOutOfRange e).cfg = s.cfg := rfl
@[simp] theorem takeOutOfRange_redraw (s : State) (e : OutOfRange) : (s.takeOutOfRange e).redraw = false := rfl
@[simp] theorem takeOutOfRange_draw (s : State) (e : OutOfRange) : (s.takeOutOfRange e).draw = s.draw := rfl
@[simp] theorem takeOutOfRange_freeCount (s : State) (e : OutOfRange) : (s.takeOutOfRange e).freeCount = s.freeCount := rfl

/-! ### consumeDraw -/

@[simp] theorem consumeDraw_v (s : State) : (s.consumeDraw).v = s.v := rfl
@[simp] theorem consumeDraw_index (s : State) : (s.consumeDraw).index = s.index := rfl
@[simp] theorem consumeDraw_pc (s : State) : (s.consumeDraw).pc = s.pc := rfl
@[simp] theorem consumeDraw_stack (s : State) : (s.consumeDraw).stack = s.stack := rfl
@[simp] theorem consumeDraw_sp (s : State) : (s.consumeDraw).sp = s.sp := rfl
@[simp] theorem consumeDraw_dt (s : State) : (s.consumeDraw).dt = s.dt := rfl
@[simp] theorem consumeDraw_st (s : State) : (s.consumeDraw).st = s.st := rfl
@[simp] theorem consumeDraw_execState (s : State) : (s.consumeDraw).execState = s.execState := rfl
@[simp] theorem consumeDraw_mem (s : State) : (s.consumeDraw).mem = s.mem := rfl
@[simp] theorem consumeDraw_fb (s : State) : (s.consumeDraw).fb = s.fb := rfl
@[simp] theorem consumeDraw_key (s : State) : (s.consumeDraw).key = s.key := rfl
@[simp] theorem consumeDraw_cfg (s : State) : (s.consumeDraw).cfg = s.cfg := rfl
@[simp] theorem consumeDraw_redraw (s : State) : (s.consumeDraw).redraw = s.redraw := rfl
@[simp] theorem consumeDraw_draw (s : State) : (s.consumeDraw).draw = none := rfl
@[simp] theorem consumeDraw_freeCount (s : State) : (s.consumeDraw).freeCount = s.freeCount + 1 := rfl

/-! ### drawSprite -/

@[simp] theorem drawSprite_index (s : State) (px py : Byte) (rows : List Byte) : (s.drawSprite px py rows).index = s.index := rfl
@[simp] theorem drawSprite_pc (s : State) (px py : Byte) (rows : List Byte) : (s.drawSprite px py rows).pc = s.pc := rfl
@[simp] theorem drawSprite_stack (s : State) (px py : Byte) (rows : List Byte) : (s.drawSprite px py rows).stack = s.stack := rfl
@[simp] theorem drawSprite_sp (s : State) (px py : Byte) (rows : List Byte) : (s.drawSprite px py rows).sp = s.sp := rfl
@[simp] theorem drawSprite_dt (s : State) (px py : Byte) (rows : List Byte) : (s.drawSprite px py rows).dt = s.dt := rfl
@[simp] theorem drawSprite_st (s : State) (px py : Byte) (rows : List Byte) : (s.drawSprite px py rows).st = s.st := rfl
@[simp] theorem drawSprite_execState (s : State) (px py : Byte) (rows : List Byte) : (s.drawSprite px py rows).execState = s.execState := rfl
@[simp] theorem drawSprite_mem (s : State) (px py : Byte) (rows : List Byte) : (s.drawSprite px py rows).mem = s.mem := rfl
@[simp] theorem drawSprite_fb (s : State) (px py : Byte) (rows : List Byte) : (s.drawSprite px py rows).fb = (Drawing.sprite ⟨s.fb, false⟩ px.toNat py.toNat rows).fb := rfl
@[simp] theorem drawSprite_key (s : State) (px py : Byte) (rows : List Byte) : (s.drawSprite px py rows).key = s.key := rfl
@[simp] theorem drawSprite_cfg (s : State) (px py : Byte) (rows : List Byte) : (s.drawSprite px py rows).cfg = s.cfg := rfl
@[simp] theorem drawSprite_redraw (s : State) (px py : Byte) (rows : List Byte) : (s.drawSprite px py rows).redraw = true := rfl
@[simp] theorem drawSprite_draw (s : State) (px py : Byte) (rows : List Byte) : (s.drawSprite px py rows).draw = s.draw := rfl
@[simp] theorem drawSprite_freeCount (s : State) (px py : Byte) (rows : List Byte) : (s.drawSprite px py rows).freeCount = s.freeCount := rfl

/-! ### skipIf, callTo, popToPc -/

@[simp] theorem skipIf_pc (s : State) (c : Bool) : (s.skipIf c).pc = if c then s.pc + 2 else s.pc := by
  cases c <;> rfl
@[simp] theorem skipIf_v (s : State) (c : Bool) : (s.skipIf c).v = s.v := by cases c <;> rfl
@[simp] theorem skipIf_index (s : State) (c : Bool) : (s.skipIf c).index = s.index := by cases c <;> rfl
@[simp] theorem skipIf_stack (s : State) (c : Bool) : (s.skipIf c).stack = s.stack := by cases c <;> rfl
@[simp] theorem skipIf_sp (s : State) (c : Bool) : (s.skipIf c).sp = s.sp := by cases c <;> rfl
@[simp] theorem skipIf_dt (s : State) (c : Bool) : (s.skipIf c).dt = s.dt := by cases c <;> rfl
@[simp] theorem skipIf_st (s : State) (c : Bool) : (s.skipIf c).st = s.st := by cases c <;> rfl
@[simp] theorem skipIf_execState (s : State) (c : Bool) : (s.skipIf c).execState = s.execState := by cases c <;> rfl
@[simp] theorem skipIf_mem (s : State) (c : Bool) : (s.skipIf c).mem = s.mem := by cases c <;> rfl
@[simp] theorem skipIf_fb (s : State) (c : Bool) : (s.skipIf c).fb = s.fb := by cases c <;> rfl
@[simp] theorem skipIf_key (s : State) (c : Bool) : (s.skipIf c).key = s.key := by cases c <;> rfl
@[simp] theorem skipIf_cfg (s : State) (c : Bool) : (s.skipIf c).cfg = s.cfg := by cases c <;> rfl
@[simp] theorem skipIf_redraw (s : State) (c : Bool) : (s.skipIf c).redraw = s.redraw := by cases c <;> rfl
@[simp] theorem skipIf_draw (s : State) (c : Bool) : (s.skipIf c).draw = s.draw := by cases c <;> rfl
@[simp] theorem skipIf_freeCount (s : State) (c : Bool) : (s.skipIf c).freeCount = s.freeCount := by cases c <;> rfl

@[simp] theorem callTo_v (s : State) (w : Word) : (s.callTo w).v = s.v := by unfold State.callTo; split <;> rfl
@[simp] theorem callTo_index (s : State) (w : Word) : (s.callTo w).index = s.index := by unfold State.callTo; split <;> rfl
@[simp] theorem callTo_dt (s : State) (w : Word) : (s.callTo w).dt = s.dt := by unfold State.callTo; split <;> rfl
@[simp] theorem callTo_st (s : State) (w : Word) : (s.callTo w).st = s.st := by unfold State.callTo; split <;> rfl
@[simp] theorem callTo_execState (s : State) (w : Word) : (s.callTo w).execState = s.execState := by unfold State.callTo; split <;> rfl
@[simp] theorem callTo_mem (s : State) (w : Word) : (s.callTo w).mem = s.mem := by unfold State.callTo; split <;> rfl
@[simp] theorem callTo_fb (s : State) (w : Word) : (s.callTo w).fb = s.fb := by unfold State.callTo; split <;> rfl
@[simp] theorem callTo_key (s : State) (w : Word) : (s.callTo w).key = s.key := by unfold State.callTo; split <;> rfl
@[simp] theorem callTo_cfg (s : State) (w : Word) : (s.callTo w).cfg = s.cfg := by unfold State.callTo; split <;> rfl
@[simp] theorem callTo_redraw (s : State) (w : Word) : (s.callTo w).redraw = s.redraw := by unfold State.callTo; split <;> rfl
@[simp] theorem callTo_draw (s : State) (w : Word) : (s.callTo w).draw = s.draw := by unfold State.callTo; split <;> rfl
@[simp] theorem callTo_freeCount (s : State) (w : Word) : (s.callTo w).freeCount = s.freeCount := by unfold State.callTo; split <;> rfl

@[simp] theorem popToPc_v (s : State) : (s.popToPc).v = s.v := by unfold State.popToPc; split <;> rfl
@[simp] theorem popToPc_index (s : State) : (s.popToPc).index = s.index := by unfold State.popToPc; split <;> rfl
@[simp] theorem popToPc_stack (s : State) : (s.popToPc).stack = s.stack := by unfold State.popToPc; split <;> rfl
@[simp] theorem popToPc_dt (s : State) : (s.popToPc).dt = s.dt := by unfold State.popToPc; split <;> rfl
@[simp] theorem popToPc_st (s : State) : (s.popToPc).st = s.st := by unfold State.popToPc; split <;> rfl
@[simp] theorem popToPc_execState (s : State) : (s.popToPc).execState = s.execState := by unfold State.popToPc; split <;> rfl
@[simp] theorem popToPc_mem (s : State) : (s.popToPc).mem = s.mem := by unfold State.popToPc; split <;> rfl
@[simp] theorem popToPc_fb (s : State) : (s.popToPc).fb = s.fb := by unfold State.popToPc; split <;> rfl
@[simp] theorem popToPc_key (s : State) : (s.popToPc).key = s.key := by unfold State.popToPc; split <;> rfl
@[simp] theorem popToPc_cfg (s : State) : (s.popToPc).cfg = s.cfg := by unfold State.popToPc; split <;> rfl
@[simp] theorem popToPc_redraw (s : State) : (s.popToPc).redraw = s.redraw := by unfold State.popToPc; split <;> rfl
@[simp] theorem popToPc_draw (s : State) : (s.popToPc).draw = s.draw := by unfold State.popToPc; split <;> rfl
@[simp] theorem popToPc_freeCount (s : State) : (s.popToPc).freeCount = s.freeCount := by unfold State.popToPc; split <;> rfl

/-- A call with room pushes pc and jumps. -/
theorem callTo_of_lt (s : State) (w : Word) (h : s.sp.val < 16) :
    s.callTo w = { s with stack := s.stack.set s.sp.val s.pc h, sp := ⟨s.sp.val + 1, by omega⟩, pc := w } := by
  simp [State.callTo, h]

/-- A call on a full stack changes nothing. -/
theorem callTo_of_full (s : State) (w : Word) (h : ¬ s.sp.val < 16) : s.callTo w = s := by
  simp [State.callTo, h]

/-- A return with an entry pops it into pc. -/
theorem popToPc_of_pos (s : State) (h : 0 < s.sp.val) :
    s.popToPc = { s with sp := ⟨s.sp.val - 1, by omega⟩,
                         pc := s.stack[s.sp.val - 1]'(by have := s.sp.isLt; omega) } := by
  simp [State.popToPc, h]

/-- A return on an empty stack changes nothing. -/
theorem popToPc_of_empty (s : State) (h : ¬ 0 < s.sp.val) : s.popToPc = s := by
  simp [State.popToPc, h]

/-! ### Registers -/

theorem reg_congr {s t : State} (h : t.v = s.v) (x : RegIdx) : t.reg x = s.reg x := by
  simp only [State.reg, h]

theorem reg_setReg (s : State) (x y : RegIdx) (b : Byte) :
    (s.setReg x b).reg y = if y = x then b else s.reg y := by
  simp [State.reg, State.setReg, Vector.get_eq_getElem, Vector.getElem_set, Fin.ext_iff, eq_comm]

@[simp] theorem reg_setReg_same (s : State) (x : RegIdx) (b : Byte) : (s.setReg x b).reg x = b := by
  simp [reg_setReg]

theorem reg_setReg_other (s : State) (x y : RegIdx) (b : Byte) (h : y ≠ x) :
    (s.setReg x b).reg y = s.reg y := by
  simp [reg_setReg, h]

@[simp] theorem reg_loadRegs (s : State) (bs : List Byte) (y : RegIdx) :
    (s.loadRegs bs).reg y = bs.getD y.val (s.reg y) := by
  simp [State.reg, State.loadRegs, Vector.get_eq_getElem]

@[simp] theorem reg_advance (s : State) (x : RegIdx) : s.advance.reg x = s.reg x := rfl

@[simp] theorem reg_consumeDraw (s : State) (x : RegIdx) : s.consumeDraw.reg x = s.reg x := rfl

@[simp] theorem reg_setByte (s : State) (a : Nat) (b : Byte) (x : RegIdx) : (s.setByte a b).reg x = s.reg x := rfl

/-- What every register reads as after a result and then its flag are written: VF holds the flag, whatever x is. -/
theorem reg_setRegThenFlag (s : State) (x y : RegIdx) (b : Byte) (f : Bool) :
    (s.setRegThenFlag x b f).reg y = if y = vf then flagByte f else if y = x then b else s.reg y := by
  simp [State.setRegThenFlag, reg_setReg]

theorem reg_drawSprite (s : State) (px py : Byte) (rows : List Byte) (y : RegIdx) :
    (s.drawSprite px py rows).reg y =
      if y = vf then flagByte (Drawing.sprite ⟨s.fb, false⟩ px.toNat py.toNat rows).hit else s.reg y :=
  reg_setReg s vf y _

theorem length_regsUpTo (s : State) (x : RegIdx) : (s.regsUpTo x).length = x.val + 1 := by
  simp [State.regsUpTo]

/-- Entry `k` of V0, .., Vx is Vk. -/
theorem getElem_regsUpTo (s : State) (x : RegIdx) (k : Nat) (h : k < (s.regsUpTo x).length) :
    (s.regsUpTo x)[k] = s.reg ⟨k, by rw [length_regsUpTo] at h; omega⟩ := by
  simp [State.regsUpTo, State.reg, Vector.get_eq_getElem]

end Sys2Proof.Machine
end

