-- ==== Sys2Proof/Laws/Framebuffer.lean ====
section
/-! SUPPORT. Pixels: a read after a write, and what drawing a sprite does to one pixel and to the collision flag. -/

namespace Sys2Proof.Machine

theorem pixel_setPixel_same (fb : Framebuffer) (px : Fin 64) (py : Fin 32) (b : Bool) :
    Framebuffer.pixel (Framebuffer.setPixel fb px py b) px py = b := by
  simp [Framebuffer.pixel, Framebuffer.setPixel, Vector.get_eq_getElem]

theorem pixel_setPixel_other (fb : Framebuffer) (px qx : Fin 64) (py qy : Fin 32) (b : Bool)
    (h : ¬(qx = px ∧ qy = py)) :
    Framebuffer.pixel (Framebuffer.setPixel fb px py b) qx qy = Framebuffer.pixel fb qx qy := by
  simp only [Framebuffer.pixel, Framebuffer.setPixel, Vector.get_eq_getElem]
  by_cases hx : px.val = qx.val
  · have hy : py.val ≠ qy.val := fun hy => h ⟨(Fin.ext hx).symm, (Fin.ext hy).symm⟩
    rw [Vector.getElem_set, if_pos hx, Vector.getElem_set, if_neg hy]
    simp only [hx]
  · rw [Vector.getElem_set_ne _ _ hx]

@[simp] theorem pixel_clear (px : Fin 64) (py : Fin 32) : Framebuffer.pixel Framebuffer.clear px py = false := by
  simp [Framebuffer.pixel, Framebuffer.clear, Vector.get_eq_getElem]

/-- Two framebuffers with the same pixels are equal. -/
theorem framebuffer_ext {fb gb : Framebuffer}
    (h : ∀ px py, Framebuffer.pixel fb px py = Framebuffer.pixel gb px py) : fb = gb := by
  apply Vector.ext
  intro i hi
  apply Vector.ext
  intro j hj
  exact h ⟨i, hi⟩ ⟨j, hj⟩

/-- Plotting a 1 bit inverts its pixel. -/
theorem pixel_plot_same (d : Drawing) (px : Fin 64) (py : Fin 32) :
    Framebuffer.pixel (d.plot px py true).fb px py = !Framebuffer.pixel d.fb px py :=
  pixel_setPixel_same _ _ _ _

/-- Plotting a 0 bit, or on another pixel, keeps a pixel. -/
theorem pixel_plot_other (d : Drawing) (px qx : Fin 64) (py qy : Fin 32) (bit : Bool)
    (h : ¬(bit = true ∧ qx = px ∧ qy = py)) :
    Framebuffer.pixel (d.plot px py bit).fb qx qy = Framebuffer.pixel d.fb qx qy := by
  cases bit with
  | false => rfl
  | true => exact pixel_setPixel_other _ _ _ _ _ _ fun hq => h ⟨rfl, hq⟩

theorem hit_plot (d : Drawing) (px : Fin 64) (py : Fin 32) (bit : Bool) :
    (d.plot px py bit).hit = (d.hit || (bit && Framebuffer.pixel d.fb px py)) := by
  cases bit <;> simp [Drawing.plot]

/-- `wrapX` is injective on 64 consecutive columns. -/
theorem wrapX_inj {p c d : Nat} (hc : c < 64) (hd : d < 64) (h : wrapX (p + c) = wrapX (p + d)) : c = d := by
  have := congrArg Fin.val h
  simp only [wrapX] at this
  omega

/-- `wrapY` is injective on 32 consecutive rows. -/
theorem wrapY_inj {p c d : Nat} (hc : c < 32) (hd : d < 32) (h : wrapY (p + c) = wrapY (p + d)) : c = d := by
  have := congrArg Fin.val h
  simp only [wrapY] at this
  omega

/-- Some 1 bit of the first `n` columns of a row lands on the pixel. -/
abbrev rowCovers (bits : Byte) (px0 py n : Nat) (qx : Fin 64) (qy : Fin 32) : Prop :=
  ∃ c, c < n ∧ spriteBit bits c = true ∧ qx = wrapX (px0 + c) ∧ qy = wrapY py

theorem rowCovers_succ {bits : Byte} {px0 py n : Nat} {qx : Fin 64} {qy : Fin 32} :
    rowCovers bits px0 py (n + 1) qx qy ↔
      rowCovers bits px0 py n qx qy ∨ (spriteBit bits n = true ∧ qx = wrapX (px0 + n) ∧ qy = wrapY py) := by
  constructor
  · rintro ⟨c, hc, h⟩
    rcases Nat.lt_succ_iff_lt_or_eq.1 hc with hc | rfl
    · exact .inl ⟨c, hc, h⟩
    · exact .inr h
  · rintro (⟨c, hc, h⟩ | h)
    · exact ⟨c, by omega, h⟩
    · exact ⟨n, by omega, h⟩

/-- `d` became `d'` by drawing over the pixels `cov`: each is inverted, every other is kept, and a hit is a pixel of `cov`
that was 1 before. -/
structure DrewOver (d d' : Drawing) (cov : Fin 64 → Fin 32 → Prop) : Prop where
  covered : ∀ qx qy, cov qx qy → Framebuffer.pixel d'.fb qx qy = !Framebuffer.pixel d.fb qx qy
  kept : ∀ qx qy, ¬ cov qx qy → Framebuffer.pixel d'.fb qx qy = Framebuffer.pixel d.fb qx qy
  hit : d'.hit = true ↔ d.hit = true ∨ ∃ qx qy, cov qx qy ∧ Framebuffer.pixel d.fb qx qy = true

/-- Drawing over two sets of pixels that do not meet is drawing over both. -/
theorem DrewOver.trans {d e f : Drawing} {p q r : Fin 64 → Fin 32 → Prop} (h1 : DrewOver d e p) (h2 : DrewOver e f q)
    (hdis : ∀ qx qy, q qx qy → ¬ p qx qy) (hr : ∀ qx qy, r qx qy ↔ p qx qy ∨ q qx qy) : DrewOver d f r where
  covered qx qy h := by
    rcases (hr qx qy).1 h with h | h
    · rw [h2.kept qx qy fun hq => hdis qx qy hq h, h1.covered qx qy h]
    · rw [h2.covered qx qy h, h1.kept qx qy (hdis qx qy h)]
  kept qx qy h := by
    rw [h2.kept qx qy fun hq => h ((hr qx qy).2 (.inr hq)), h1.kept qx qy fun hp => h ((hr qx qy).2 (.inl hp))]
  hit := by
    rw [h2.hit, h1.hit, or_assoc]
    refine or_congr Iff.rfl ⟨?_, ?_⟩
    · rintro (⟨qx, qy, h, hp⟩ | ⟨qx, qy, h, hp⟩)
      · exact ⟨qx, qy, (hr qx qy).2 (.inl h), hp⟩
      · rw [h1.kept qx qy (hdis qx qy h)] at hp
        exact ⟨qx, qy, (hr qx qy).2 (.inr h), hp⟩
    · rintro ⟨qx, qy, h, hp⟩
      rcases (hr qx qy).1 h with h | h
      · exact .inl ⟨qx, qy, h, hp⟩
      · exact .inr ⟨qx, qy, h, by rw [h1.kept qx qy (hdis qx qy h)]; exact hp⟩

theorem plot_drewOver (d : Drawing) (px : Fin 64) (py : Fin 32) (bit : Bool) :
    DrewOver d (d.plot px py bit) fun qx qy => bit = true ∧ qx = px ∧ qy = py where
  covered qx qy h := by
    obtain ⟨rfl, rfl, rfl⟩ := h
    exact pixel_plot_same d _ _
  kept qx qy h := pixel_plot_other d px qx py qy bit h
  hit := by
    rw [hit_plot, Bool.or_eq_true, Bool.and_eq_true]
    refine or_congr Iff.rfl ⟨fun h => ⟨px, py, ⟨h.1, rfl, rfl⟩, h.2⟩, ?_⟩
    rintro ⟨_, _, ⟨hb, rfl, rfl⟩, hp⟩
    exact ⟨hb, hp⟩

/-- Drawing the first `n` columns of a row. No two columns meet on one pixel (44_display.md R193). -/
theorem row_drewOver (d : Drawing) (px0 py : Nat) (bits : Byte) (n : Nat) (hn : n ≤ 8) :
    DrewOver d (d.row px0 py bits n) (rowCovers bits px0 py n) := by
  induction n with
  | zero => exact ⟨by rintro _ _ ⟨c, hc, -⟩; omega, fun _ _ _ => rfl, by simp [Drawing.row, rowCovers]⟩
  | succ n ih =>
    refine (ih (by omega)).trans (plot_drewOver _ _ _ _) ?_ fun _ _ => rowCovers_succ
    rintro _ _ ⟨-, rfl, -⟩ ⟨c, hc, -, hx, -⟩
    have := wrapX_inj (by omega) (by omega) hx
    omega

/-- Some 1 bit of the sprite, drawn at (px0, py0), lands on the pixel (44_display.md R191, R193, R194). -/
abbrev spriteCovers (rows : List Byte) (px0 py0 : Nat) (qx : Fin 64) (qy : Fin 32) : Prop :=
  ∃ r, r < rows.length ∧ rowCovers (rows.getD r 0) px0 (py0 + r) 8 qx qy

theorem spriteCovers_cons {bits : Byte} {rows : List Byte} {px0 py0 : Nat} {qx : Fin 64} {qy : Fin 32} :
    spriteCovers (bits :: rows) px0 py0 qx qy ↔
      rowCovers bits px0 py0 8 qx qy ∨ spriteCovers rows px0 (py0 + 1) qx qy := by
  constructor
  · rintro ⟨r, hr, h⟩
    cases r with
    | zero => exact .inl (by simpa using h)
    | succ r =>
      refine .inr ⟨r, by simpa using hr, ?_⟩
      rw [show py0 + 1 + r = py0 + (r + 1) by omega]
      simpa using h
  · rintro (h | ⟨r, hr, h⟩)
    · exact ⟨0, by simp, by simpa using h⟩
    · refine ⟨r + 1, by simpa using hr, ?_⟩
      rw [show py0 + 1 + r = py0 + (r + 1) by omega] at h
      simpa using h

/-- Drawing a sprite of at most 32 rows, in which no two rows meet on one pixel (44_display.md R193). -/
theorem sprite_drewOver (d : Drawing) (px0 py0 : Nat) (rows : List Byte) (hlen : rows.length ≤ 32) :
    DrewOver d (d.sprite px0 py0 rows) (spriteCovers rows px0 py0) := by
  induction rows generalizing d py0 with
  | nil => exact ⟨by rintro _ _ ⟨r, hr, -⟩; simp at hr, fun _ _ _ => rfl, by simp [Drawing.sprite, spriteCovers]⟩
  | cons bits rows ih =>
    simp only [List.length_cons] at hlen
    refine (row_drewOver d px0 py0 bits 8 (Nat.le_refl 8)).trans (ih _ (py0 + 1) (by omega)) ?_
      fun _ _ => spriteCovers_cons
    rintro qx qy ⟨r, hr, c, -, -, -, hy⟩ ⟨c', -, -, -, hy'⟩
    rw [hy, show py0 + 1 + r = py0 + (r + 1) by omega] at hy'
    have := wrapY_inj (p := py0) (c := r + 1) (d := 0) (by omega) (by omega) hy'
    omega

end Sys2Proof.Machine
end

