-- ==== Sys2Proof/Laws/Memory.lean ====
section
/-! SUPPORT. Memory: a read after a write, the canonical form, the range check, and what reading and writing runs of bytes
can do. -/

namespace Sys2Proof.Machine

/-! ## One byte -/

theorem get_filter_ne (f : Font) (m : Memory) (a c : Nat) (h : c ≠ a) :
    Memory.get f (m.filter fun e => decide (e.1 ≠ a)) c = Memory.get f m c := by
  induction m with
  | nil => rfl
  | cons e rest ih =>
    obtain ⟨k, b⟩ := e
    by_cases hk : k = a
    · subst hk
      simpa [Memory.get, h] using ih
    · simp only [Memory.get, List.filter, ne_eq, hk, not_false_eq_true, decide_true]
      simp only [ne_eq] at ih
      rw [ih]

theorem get_filter_eq (f : Font) (m : Memory) (a : Nat) :
    Memory.get f (m.filter fun e => decide (e.1 ≠ a)) a = Memory.blank f a := by
  induction m with
  | nil => rfl
  | cons e rest ih =>
    obtain ⟨k, b⟩ := e
    by_cases hk : k = a
    · subst hk
      simpa using ih
    · simp only [List.filter, ne_eq, hk, not_false_eq_true, decide_true, Memory.get, Ne.symm hk, if_false]
      simpa using ih

theorem get_insert (f : Font) (m : Memory) (a : Nat) (b : Byte) (c : Nat) (h : ∀ e ∈ m, e.1 ≠ a) :
    Memory.get f (Memory.insert a b m) c = if c = a then b else Memory.get f m c := by
  induction m with
  | nil => simp [Memory.insert, Memory.get]
  | cons e rest ih =>
    obtain ⟨k, d⟩ := e
    have hk : k ≠ a := h (k, d) (by simp)
    have ih := ih fun e he => h e (by simp [he])
    by_cases hlt : a < k
    · simp [Memory.insert, hlt, Memory.get]
    · simp only [Memory.insert, hlt, if_false, Memory.get, ih]
      by_cases hc : c = k
      · simp [hc, hk]
      · simp [hc]

/-- A read after a write: the byte written at its own address, what was there before elsewhere. It holds of every list,
canonical or not. -/
theorem get_put (f : Font) (m : Memory) (a : Nat) (b : Byte) (c : Nat) :
    Memory.get f (Memory.put f m a b) c = if c = a then b else Memory.get f m c := by
  unfold Memory.put
  by_cases hb : b = Memory.blank f a
  · by_cases hc : c = a
    · simp only [hb, if_true, hc, get_filter_eq]
    · simp only [hb, if_true, hc, if_false, get_filter_ne f m a c hc]
  · simp only [hb, if_false]
    rw [get_insert f _ a b c (by simp)]
    by_cases hc : c = a
    · simp [hc]
    · simp only [hc, if_false, get_filter_ne f m a c hc]

theorem mem_insert {m : Memory} {a : Nat} {b : Byte} {e : Host.Cell} :
    e ∈ Memory.insert a b m ↔ e = (a, b) ∨ e ∈ m := by
  induction m with
  | nil => simp [Memory.insert]
  | cons c rest ih =>
    obtain ⟨k, d⟩ := c
    by_cases hlt : a < k
    · simp [Memory.insert, hlt]
    · simp only [Memory.insert, hlt, if_false, List.mem_cons, ih]
      tauto

theorem pairwise_insert {m : Memory} {a : Nat} {b : Byte} (h : m.Pairwise (fun p q => p.1 < q.1))
    (ha : ∀ e ∈ m, e.1 ≠ a) : (Memory.insert a b m).Pairwise (fun p q => p.1 < q.1) := by
  induction m with
  | nil => simp [Memory.insert]
  | cons c rest ih =>
    obtain ⟨k, d⟩ := c
    have hk : k ≠ a := ha (k, d) (by simp)
    rw [List.pairwise_cons] at h
    by_cases hlt : a < k
    · simp only [Memory.insert, hlt, if_true, List.pairwise_cons, List.mem_cons, forall_eq_or_imp]
      exact ⟨⟨trivial, fun e he => Nat.lt_trans hlt (h.1 e he)⟩, h.1, h.2⟩
    · simp only [Memory.insert, hlt, if_false, List.pairwise_cons]
      refine ⟨fun e he => ?_, ih h.2 fun e he => ha e (by simp [he])⟩
      rcases mem_insert.1 he with rfl | he
      · show k < a
        omega
      · exact h.1 e he

/-- A write inside the address space keeps the canonical form. -/
theorem wf_put {f : Font} {m : Memory} {a : Nat} {b : Byte} (h : Memory.wf f m) (ha : a < memSize) :
    Memory.wf f (Memory.put f m a b) := by
  have hp : (m.filter fun e => decide (e.1 ≠ a)).Pairwise (fun p q => p.1 < q.1) := h.1.filter _
  have hm : ∀ e ∈ m.filter fun e => decide (e.1 ≠ a), e.1 < memSize ∧ e.2 ≠ Memory.blank f e.1 :=
    fun e he => h.2 e (List.mem_filter.1 he).1
  unfold Memory.put
  by_cases hb : b = Memory.blank f a
  · simp only [hb, if_true]
    exact ⟨hp, hm⟩
  · simp only [hb, if_false]
    refine ⟨pairwise_insert hp (by simp), fun e he => ?_⟩
    rcases mem_insert.1 he with rfl | he
    · exact ⟨ha, hb⟩
    · exact hm e he

theorem byteAt_setByte (s : State) (a : Nat) (b : Byte) (c : Nat) :
    (s.setByte a b).byteAt c = if c = a then b else s.byteAt c :=
  get_put s.cfg.font s.mem a b c

/-- A byte of memory depends on memory and the font alone. -/
theorem byteAt_congr {s t : State} (hm : t.mem = s.mem) (hc : t.cfg = s.cfg) (a : Nat) : t.byteAt a = s.byteAt a := by
  simp only [State.byteAt, hm, hc]

/-! ## The range check -/

theorem rangeCheck_of_lt (p : OorPolicy) (r : FaultReason) {addr : Nat} (h : addr < memSize) :
    rangeCheck p r addr = .ok addr := by
  simp [rangeCheck, h]

theorem rangeCheck_wrap (r : FaultReason) (addr : Nat) : rangeCheck .wrap r addr = .ok (addr % memSize) := by
  unfold rangeCheck
  split
  · rw [Nat.mod_eq_of_lt ‹_›]
  · rfl

theorem rangeCheck_fault (r : FaultReason) {addr : Nat} (h : ¬ addr < memSize) :
    rangeCheck .fault r addr = .error ⟨r, BitVec.ofNat 16 addr⟩ := by
  simp [rangeCheck, h]

/-- An access that passes reaches the address modulo the memory size, which is inside memory. -/
theorem rangeCheck_ok {p : OorPolicy} {r : FaultReason} {addr a : Nat} (h : rangeCheck p r addr = .ok a) :
    a = addr % memSize ∧ a < memSize ∧ (addr < memSize ∨ p = .wrap) := by
  by_cases hl : addr < memSize
  · rw [rangeCheck_of_lt p r hl] at h
    cases h
    exact ⟨(Nat.mod_eq_of_lt hl).symm, hl, .inl hl⟩
  · cases p with
    | fault => rw [rangeCheck_fault r hl] at h; cases h
    | wrap =>
      rw [rangeCheck_wrap] at h
      cases h
      exact ⟨rfl, Nat.mod_lt _ (by decide), .inr rfl⟩

/-- An access that raises does so under policy fault, above the address space, and names the address. -/
theorem rangeCheck_error {p : OorPolicy} {r : FaultReason} {addr : Nat} {e : OutOfRange}
    (h : rangeCheck p r addr = .error e) :
    p = .fault ∧ memSize ≤ addr ∧ e = ⟨r, BitVec.ofNat 16 addr⟩ := by
  by_cases hl : addr < memSize
  · rw [rangeCheck_of_lt p r hl] at h; cases h
  · cases p with
    | fault =>
      rw [rangeCheck_fault r hl] at h
      cases h
      exact ⟨rfl, by omega, rfl⟩
    | wrap => rw [rangeCheck_wrap] at h; cases h

/-! ## Runs of bytes -/

/-- Reading is all or nothing, and what it reads are the bytes at the addresses modulo the memory size. -/
theorem readBytes_ok (s : State) (r : FaultReason) (n addr : Nat)
    (h : s.cfg.oorPolicy = .wrap ∨ addr + n ≤ memSize) :
    s.readBytes r n addr = .ok ((List.range n).map fun k => s.byteAt ((addr + k) % memSize)) := by
  induction n generalizing addr with
  | zero => rfl
  | succ n ih =>
    have hc : rangeCheck s.cfg.oorPolicy r addr = .ok (addr % memSize) := by
      rcases h with h | h
      · rw [h, rangeCheck_wrap]
      · have hl : addr < memSize := by omega
        rw [rangeCheck_of_lt _ _ hl, Nat.mod_eq_of_lt hl]
    have ih := ih (addr + 1) (h.imp id (by omega))
    simp only [State.readBytes, hc, ih, List.range_succ_eq_map, List.map_cons, List.map_map, Nat.add_zero]
    congr 3
    funext k
    simp only [Function.comp, Nat.succ_eq_add_one]
    congr 2
    omega

/-- Reading past the end of memory under policy fault raises at the first address that is out of range. -/
theorem readBytes_fault (s : State) (r : FaultReason) (n addr : Nat) (hp : s.cfg.oorPolicy = .fault) (hn : 0 < n)
    (h : memSize < addr + n) :
    s.readBytes r n addr = .error ⟨r, BitVec.ofNat 16 (max addr memSize)⟩ := by
  induction n generalizing addr with
  | zero => omega
  | succ n ih =>
    by_cases hl : addr < memSize
    · have ih := ih (addr + 1) (by omega) (by omega)
      simp only [State.readBytes, rangeCheck_of_lt _ r hl, ih]
      congr 3
      omega
    · rw [State.readBytes, hp, rangeCheck_fault r hl, Nat.max_eq_left (by omega)]

/-- A read that raises does so under policy fault, at an address of its run that is out of range. -/
theorem readBytes_error {s : State} {r : FaultReason} {n addr : Nat} {e : OutOfRange}
    (h : s.readBytes r n addr = .error e) :
    s.cfg.oorPolicy = .fault ∧
      ∃ a, memSize ≤ a ∧ addr ≤ a ∧ a < addr + n ∧ a = max addr memSize ∧ e = ⟨r, BitVec.ofNat 16 a⟩ := by
  by_cases hr : s.cfg.oorPolicy = .wrap ∨ addr + n ≤ memSize
  · rw [readBytes_ok s r n addr hr] at h; cases h
  · have hp : s.cfg.oorPolicy = .fault := by
      cases hq : s.cfg.oorPolicy with
      | fault => rfl
      | wrap => exact absurd (.inl hq) hr
    have hn : 0 < n ∨ n = 0 := by omega
    rcases hn with hn | hn
    · have hlt : memSize < addr + n := by
        by_contra hc
        exact hr (.inr (by omega))
      rw [readBytes_fault s r n addr hp hn hlt] at h
      cases h
      exact ⟨hp, max addr memSize, by omega, by omega, by omega, rfl, rfl⟩
    · subst hn
      simp [State.readBytes] at h

/-- Writing changes memory alone, keeps its canonical form, and keeps every byte it does not reach. -/
theorem writeBytes_frame {s t : State} {bs : List Byte} {addr : Nat} (h : s.writeBytes bs addr = .ok t) :
    t = { s with mem := t.mem } ∧ (Memory.wf s.cfg.font s.mem → Memory.wf s.cfg.font t.mem) ∧
      ∀ c, (∀ k, k < bs.length → c ≠ (addr + k) % memSize) → t.byteAt c = s.byteAt c := by
  induction bs generalizing s addr with
  | nil =>
    cases h
    exact ⟨rfl, id, fun _ _ => rfl⟩
  | cons b bs ih =>
    rw [State.writeBytes] at h
    split at h
    · cases h
    · rename_i a ha
      obtain ⟨h1, h2, h3⟩ := ih h
      obtain ⟨hm, hl, -⟩ := rangeCheck_ok ha
      refine ⟨h1, fun hw => h2 (wf_put hw hl), fun c hc => ?_⟩
      rw [h3 c fun k hk => ?_, byteAt_setByte, if_neg]
      · rw [hm]
        exact hc 0 (by simp)
      · have := hc (k + 1) (by simpa using hk)
        rwa [show addr + 1 + k = addr + (k + 1) by omega]

/-- Writing a run that fits succeeds, and each byte is then found where it was put. -/
theorem writeBytes_ok (s : State) (bs : List Byte) (addr : Nat)
    (h : s.cfg.oorPolicy = .wrap ∨ addr + bs.length ≤ memSize) (hlen : bs.length ≤ memSize) :
    ∃ t, s.writeBytes bs addr = .ok t ∧
      ∀ k (hk : k < bs.length), t.byteAt ((addr + k) % memSize) = bs[k] := by
  induction bs generalizing s addr with
  | nil => exact ⟨s, rfl, fun k hk => absurd hk (by simp)⟩
  | cons b bs ih =>
    have hc : rangeCheck s.cfg.oorPolicy .dataOutOfRange addr = .ok (addr % memSize) := by
      rcases h with h | h
      · rw [h, rangeCheck_wrap]
      · have hl : addr < memSize := by simp only [List.length_cons] at h; omega
        rw [rangeCheck_of_lt _ _ hl, Nat.mod_eq_of_lt hl]
    simp only [List.length_cons] at h hlen
    obtain ⟨t, ht, hb⟩ := ih (s.setByte (addr % memSize) b) (addr + 1) (h.imp id (by omega)) (by omega)
    refine ⟨t, by rw [State.writeBytes, hc]; exact ht, fun k hk => ?_⟩
    simp only [List.length_cons] at hk
    cases k with
    | zero =>
      rw [(writeBytes_frame ht).2.2 _ fun k hk => ?_, byteAt_setByte]
      · simp
      · simp only [memSize] at hlen ⊢
        omega
    | succ k =>
      have := hb k (by omega)
      rw [show addr + (k + 1) = addr + 1 + k by omega, this]
      simp

/-- Writing past the end of memory under policy fault raises at the first address that is out of range. -/
theorem writeBytes_fault (s : State) (bs : List Byte) (addr : Nat) (hp : s.cfg.oorPolicy = .fault) (hn : bs ≠ [])
    (h : memSize < addr + bs.length) :
    s.writeBytes bs addr = .error ⟨.dataOutOfRange, BitVec.ofNat 16 (max addr memSize)⟩ := by
  induction bs generalizing s addr with
  | nil => exact absurd rfl hn
  | cons b bs ih =>
    simp only [List.length_cons] at h
    by_cases hl : addr < memSize
    · rw [State.writeBytes, rangeCheck_of_lt _ _ hl]
      have hne : bs ≠ [] := by
        rintro rfl
        simp at h
        omega
      rw [show max addr memSize = max (addr + 1) memSize by omega]
      exact ih (s.setByte addr b) (addr + 1) hp hne (by omega)
    · rw [State.writeBytes, hp, rangeCheck_fault _ hl, Nat.max_eq_left (by omega)]

/-- A write that raises does so under policy fault, at the first address of its run that is out of range. -/
theorem writeBytes_error {s : State} {bs : List Byte} {addr : Nat} {e : OutOfRange}
    (h : s.writeBytes bs addr = .error e) :
    s.cfg.oorPolicy = .fault ∧ memSize < addr + bs.length ∧
      e = ⟨.dataOutOfRange, BitVec.ofNat 16 (max addr memSize)⟩ := by
  induction bs generalizing s addr with
  | nil => cases h
  | cons b bs ih =>
    rw [State.writeBytes] at h
    simp only [List.length_cons]
    split at h
    · cases h
      obtain ⟨hp, hl, rfl⟩ := rangeCheck_error ‹_›
      exact ⟨hp, by omega, by rw [Nat.max_eq_left hl]⟩
    · rename_i a ha
      obtain ⟨hp, hl, rfl⟩ := ih h
      refine ⟨hp, by omega, ?_⟩
      obtain ⟨-, -, hlt | hw⟩ := rangeCheck_ok ha
      · rw [show max (addr + 1) memSize = max addr memSize by omega]
      · rw [State.setByte] at hp
        exact absurd (hp.symm.trans hw) (by decide)

end Sys2Proof.Machine
end

