-- ==== Sys2Proof/Laws/Step.lean ====
section
/-! SUPPORT. What committing, a step and a host operation can answer, said once. -/

namespace Sys2Proof.Machine

/-- Committing answers the working state, or the exception taken in the state before the step. -/
theorem commit_next {s t : State} {r : Except OutOfRange State} (h : commit s r = .next t) :
    r = .ok t ∨ ∃ e, r = .error e ∧ t = s.takeOutOfRange e := by
  cases r with
  | ok u => cases h; exact .inl rfl
  | error e => cases h; exact .inr ⟨e, rfl, rfl⟩

@[simp] theorem commit_ok (s t : State) : commit s (.ok t) = .next t := rfl

@[simp] theorem commit_error (s : State) (e : OutOfRange) : commit s (.error e) = .next (s.takeOutOfRange e) := rfl

/-- Committing always answers a next state. -/
theorem commit_total (s : State) (r : Except OutOfRange State) : ∃ t, commit s r = .next t := by
  cases r <;> exact ⟨_, rfl⟩

/-- A step outside the Running state. -/
theorem step_idle {s : State} (h : s.execState ≠ .running) : step s = .next { s with redraw := false } := by
  have hi : step s = idleStep s := by
    unfold step
    cases he : s.execState with
    | running => exact absurd he h
    | waitingForKey x => rfl
    | faulted i => rfl
  exact hi

/-- A step whose fetch raises. -/
theorem step_fetch_error {s : State} {e : OutOfRange} (hr : s.execState = .running) (hf : s.fetchBytes = .error e) :
    step s = .next (s.takeOutOfRange e) := by
  simp [step, hr, hf]

/-- A step that fetches an instruction. -/
theorem step_instr {s : State} {bytes rest : List Byte} {i : Instr} (hr : s.execState = .running)
    (hf : s.fetchBytes = .ok bytes) (hd : decode bytes = .instr i rest) : step s = exec i s := by
  simp [step, hr, hf, hd]

/-- A step that fetches an unrecognized word. -/
theorem step_rejected {s : State} {bytes : List Byte} {why : DecodeError} (hr : s.execState = .running)
    (hf : s.fetchBytes = .ok bytes) (hd : decode bytes = .rejected why) : step s = .next s.advance := by
  simp [step, hr, hf, hd, execUnrecognized]

/-- The four things a step can do. -/
theorem step_cases (s : State) :
    (s.execState ≠ .running ∧ step s = .next { s with redraw := false }) ∨
    (s.execState = .running ∧ ∃ e, s.fetchBytes = .error e ∧ step s = .next (s.takeOutOfRange e)) ∨
    (s.execState = .running ∧ ∃ bytes why, s.fetchBytes = .ok bytes ∧ decode bytes = .rejected why ∧
      step s = .next s.advance) ∨
    (s.execState = .running ∧ ∃ bytes i rest, s.fetchBytes = .ok bytes ∧ decode bytes = .instr i rest ∧
      step s = exec i s) := by
  by_cases hr : s.execState = .running
  · cases hf : s.fetchBytes with
    | error e => exact .inr (.inl ⟨hr, e, rfl, step_fetch_error hr hf⟩)
    | ok bytes =>
      cases hd : decode bytes with
      | instr i rest => exact .inr (.inr (.inr ⟨hr, bytes, i, rest, rfl, hd, step_instr hr hf hd⟩))
      | rejected why => exact .inr (.inr (.inl ⟨hr, bytes, why, rfl, hd, step_rejected hr hf hd⟩))
  · exact .inl ⟨hr, step_idle hr⟩

/-- A fetch inside memory reads the two bytes at pc. -/
theorem fetchBytes_of_lt {s : State} (h : s.pc.toNat + 1 < memSize) :
    s.fetchBytes = .ok [s.byteAt s.pc.toNat, s.byteAt (s.pc.toNat + 1)] := by
  rw [State.fetchBytes, readBytes_ok s _ 2 s.pc.toNat (.inr (by omega))]
  simp [List.range_succ, Nat.mod_eq_of_lt h, Nat.mod_eq_of_lt (Nat.lt_of_succ_lt h)]

/-- A fetch under policy wrap reads the two bytes at pc modulo the memory size. -/
theorem fetchBytes_of_wrap {s : State} (h : s.cfg.oorPolicy = .wrap) :
    s.fetchBytes = .ok [s.byteAt (s.pc.toNat % memSize), s.byteAt ((s.pc.toNat + 1) % memSize)] := by
  rw [State.fetchBytes, readBytes_ok s _ 2 s.pc.toNat (.inl h)]
  simp [List.range_succ]

/-- The host's run takes the model's step first. -/
theorem core_run_succ {s t : State} (k : Nat) (h : step s = .next t) : core.run (k + 1) s = core.run k t := by
  have hs : core.step s = .next t := h
  simp [Host.Core.run, hs]

end Sys2Proof.Machine
end

