-- ==== Sys2Proof/Laws/Exec.lean ====
section
/-! SUPPORT. What the shared shapes of a meaning can do (a skip, a transfer through I, a key test), and what any instruction
can do to the execution state, the configuration, memory's form and the redraw result. -/

namespace Sys2Proof.Machine

theorem sameMemory_of {s t : State} (hm : t.mem = s.mem) (hc : t.cfg = s.cfg) : SameMemory s t :=
  fun a => byteAt_congr hm hc a

/-! ## Skips -/

/-- A skip writes pc only. -/
theorem skipIf_pcOnly (s : State) (c : Bool) : PcOnly s (s.advance.skipIf c) := by
  cases c <;> exact ⟨rfl, sameMemory_of rfl rfl⟩

/-- pc after an advance and a skip. -/
theorem pc_advance_skipIf (s : State) (c : Bool) : (s.advance.skipIf c).pc = if c then s.pc + 4 else s.pc + 2 := by
  cases c
  · rfl
  · show s.pc + 2 + 2 = s.pc + 4
    rw [BitVec.add_assoc]
    rfl

theorem reg_skipIf (s : State) (c : Bool) (z : RegIdx) : (s.skipIf c).reg z = s.reg z := by cases c <;> rfl

/-! ## Transfers through I -/

@[simp] theorem dataAddr_zero (s : State) : s.dataAddr 0 = s.index.toNat := rfl

/-- The address a byte of a transfer reaches. -/
theorem reaches_eq {s : State} {k a : Nat} (h : s.reaches k a) : a = (s.index.toNat + k) % memSize :=
  (rangeCheck_ok h).1

theorem reaches_of_accessible {s : State} {n k : Nat} (h : s.accessible n) (hk : k < n) :
    s.reaches k ((s.index.toNat + k) % memSize) := by
  unfold State.reaches State.dataAddr
  rcases h with h | h
  · rw [h, rangeCheck_wrap]
  · have hl : s.index.toNat + k < memSize := by simp only [memSize]; omega
    rw [rangeCheck_of_lt _ _ hl, Nat.mod_eq_of_lt hl]

/-- A transfer of at least one byte either can be made or raises. -/
theorem accessible_or_inaccessible (s : State) {n : Nat} (hn : 0 < n) : s.accessible n ∨ s.inaccessible n := by
  unfold State.accessible State.inaccessible
  cases s.cfg.oorPolicy with
  | wrap => exact .inl (.inl rfl)
  | fault =>
    by_cases h : s.index.toNat + n ≤ 4096
    · exact .inl (.inr h)
    · exact .inr ⟨rfl, hn, by omega⟩

/-- Storing a run of bytes that can be accessed: each byte is found where it reaches, and nothing else changes. -/
theorem commit_write_ok (s : State) (bs : List Byte) (h : s.accessible bs.length) (hl : bs.length ≤ memSize) :
    ∃ t, commit s (s.advance.writeBytes bs (s.dataAddr 0)) = .next t ∧ MemoryOnly s t ∧
      (∀ k a (hk : k < bs.length), s.reaches k a → t.byteAt a = bs[k]) ∧
      ∀ a, (∀ k, k < bs.length → ¬ s.reaches k a) → t.byteAt a = s.byteAt a := by
  obtain ⟨t, ht, hb⟩ := writeBytes_ok s.advance bs (s.dataAddr 0) h hl
  obtain ⟨h1, -, h3⟩ := writeBytes_frame ht
  refine ⟨t, by rw [ht, commit_ok], h1, fun k a hk hr => ?_, fun a ha => h3 a fun k hk he => ha k hk ?_⟩
  · rw [reaches_eq hr]
    exact hb k hk
  · rw [he]
    exact reaches_of_accessible h hk

/-- Storing a run of bytes that raises. -/
theorem commit_write_fault (s : State) (bs : List Byte) (h : s.inaccessible bs.length) :
    commit s (s.advance.writeBytes bs (s.dataAddr 0)) = .next s.dataFaulted := by
  have hne : bs ≠ [] := fun he => absurd h.2.1 (by simp [he])
  rw [dataAddr_zero, writeBytes_fault s.advance bs _ h.1 hne h.2.2, commit_error]
  rfl

/-- Reading a run of bytes that can be accessed and using it. -/
theorem commit_read_ok (s : State) (n : Nat) (f : List Byte → State) (h : s.accessible n) :
    commit s ((s.readBytes .dataOutOfRange n (s.dataAddr 0)).map f) =
      .next (f ((List.range n).map fun k => s.byteAt ((s.index.toNat + k) % memSize))) := by
  rw [dataAddr_zero, readBytes_ok s _ n _ h]
  rfl

/-- Reading a run of bytes that raises. -/
theorem commit_read_fault (s : State) (n : Nat) (f : List Byte → State) (h : s.inaccessible n) :
    commit s ((s.readBytes .dataOutOfRange n (s.dataAddr 0)).map f) = .next s.dataFaulted := by
  rw [dataAddr_zero, readBytes_fault s _ n _ h.1 h.2.1 h.2.2]
  rfl

/-! ## Key tests -/

theorem keyIndex_ok {p : OorPolicy} {b : Byte} {k : KeyCode} (hk : k.val = b.toNat % 16)
    (h : b.toNat < 16 ∨ p = .wrap) : keyIndex p b = .ok k := by
  unfold keyIndex
  split
  · congr 1
    apply Fin.ext
    simp only
    omega
  · rcases h with h | rfl
    · omega
    · exact congrArg Except.ok (Fin.ext hk.symm)

theorem keyIndex_fault {b : Byte} (h : 0xF < b.toNat) :
    keyIndex .fault b = .error ⟨.keyOutOfRange, zextByte b⟩ := by
  rw [keyIndex, dif_neg (by omega)]

/-- A key test that raises does so under policy fault, with a value that names no key. -/
theorem keyIndex_error {p : OorPolicy} {b : Byte} {e : OutOfRange} (h : keyIndex p b = .error e) :
    p = .fault ∧ 0xF < b.toNat ∧ e = ⟨.keyOutOfRange, zextByte b⟩ := by
  by_cases hb : b.toNat < 16
  · rw [keyIndex_ok (k := ⟨b.toNat, hb⟩) (by simp only; omega) (.inl hb)] at h
    cases h
  · cases p with
    | wrap =>
      rw [keyIndex_ok (k := ⟨b.toNat % 16, by omega⟩) rfl (.inr rfl)] at h
      cases h
    | fault =>
      rw [keyIndex_fault (by omega)] at h
      cases h
      exact ⟨rfl, by omega, rfl⟩

/-! ## Any instruction -/

/-- An exception an instruction can raise. -/
def RaisedBy (s : State) (e : OutOfRange) : Prop :=
  s.cfg.oorPolicy = .fault ∧
    ((e.reason = .dataOutOfRange ∧ 0xFFF < e.value.toNat) ∨
      (e.reason = .keyOutOfRange ∧ 0xF < e.value.toNat ∧ e.value.toNat ≤ 0xFF))

/-- What every instruction that raises nothing keeps. -/
structure Committed (i : Instr) (s t : State) : Prop where
  noFault : ∀ info, t.execState = .faulted info → s.execState = .faulted info
  cfg : t.cfg = s.cfg
  wf : MemoryCanonical s → MemoryCanonical t
  redraw : t.redraw = true ↔ (i = .cls ∨ ∃ x y n, i = .drw x y n)

theorem commit_write_cases {s t : State} {bs : List Byte}
    (h : commit s (s.advance.writeBytes bs (s.dataAddr 0)) = .next t) :
    (∃ e, RaisedBy s e ∧ t = s.takeOutOfRange e) ∨ s.advance.writeBytes bs (s.dataAddr 0) = .ok t := by
  rcases commit_next h with hr | ⟨e, hr, rfl⟩
  · exact .inr hr
  · obtain ⟨hp, -, rfl⟩ := writeBytes_error hr
    refine .inl ⟨_, ⟨hp, .inl ⟨rfl, ?_⟩⟩, rfl⟩
    have := s.index.isLt
    simp only [dataAddr_zero, memSize, BitVec.toNat_ofNat]
    omega

theorem commit_read_cases {s t : State} {n : Nat} {f : List Byte → State}
    (h : commit s ((s.readBytes .dataOutOfRange n (s.dataAddr 0)).map f) = .next t) :
    (∃ e, RaisedBy s e ∧ t = s.takeOutOfRange e) ∨ ∃ bs, t = f bs := by
  cases hb : s.readBytes .dataOutOfRange n (s.dataAddr 0) with
  | ok bs => rw [hb] at h; cases h; exact .inr ⟨bs, rfl⟩
  | error e =>
    rw [hb] at h
    cases h
    obtain ⟨hp, a, h1, -, -, h2, rfl⟩ := readBytes_error hb
    refine .inl ⟨_, ⟨hp, .inl ⟨rfl, ?_⟩⟩, rfl⟩
    have := s.index.isLt
    simp only [dataAddr_zero, memSize, BitVec.toNat_ofNat] at *
    omega

theorem commit_key_cases {s t : State} {x : RegIdx} {f : KeyCode → State}
    (h : commit s ((keyIndex s.cfg.oorPolicy (s.reg x)).map f) = .next t) :
    (∃ e, RaisedBy s e ∧ t = s.takeOutOfRange e) ∨ ∃ k, t = f k := by
  cases hb : keyIndex s.cfg.oorPolicy (s.reg x) with
  | ok k => rw [hb] at h; cases h; exact .inr ⟨k, rfl⟩
  | error e =>
    rw [hb] at h
    cases h
    obtain ⟨hp, hx, rfl⟩ := keyIndex_error hb
    have := (s.reg x).isLt
    refine .inl ⟨_, ⟨hp, .inr ⟨rfl, ?_, ?_⟩⟩, rfl⟩ <;> simp only [zextByte, BitVec.toNat_setWidth] <;> omega

/-- An instruction takes an exception in the state before it, or commits. -/
theorem exec_cases {i : Instr} {s t : State} (h : exec i s = .next t) :
    (∃ e, RaisedBy s e ∧ t = s.takeOutOfRange e) ∨ Committed i s t := by
  cases i with
  | drw x y n =>
    refine (commit_read_cases h).imp id ?_
    rintro ⟨bs, rfl⟩
    exact ⟨fun _ => id, rfl, id, by simp⟩
  | ldRegs x =>
    refine (commit_read_cases h).imp id ?_
    rintro ⟨bs, rfl⟩
    exact ⟨fun _ => id, rfl, id, by simp⟩
  | skp x =>
    refine (commit_key_cases h).imp id ?_
    rintro ⟨k, rfl⟩
    exact ⟨by simp, by simp, by simp [MemoryCanonical], by simp⟩
  | sknp x =>
    refine (commit_key_cases h).imp id ?_
    rintro ⟨k, rfl⟩
    exact ⟨by simp, by simp, by simp [MemoryCanonical], by simp⟩
  | ldB x =>
    refine (commit_write_cases h).imp id fun hr => ?_
    obtain ⟨h1, h2, -⟩ := writeBytes_frame hr
    rw [h1]
    exact ⟨fun _ => id, rfl, h2, by simp⟩
  | stRegs x =>
    refine (commit_write_cases h).imp id fun hr => ?_
    obtain ⟨h1, h2, -⟩ := writeBytes_frame hr
    rw [h1]
    exact ⟨fun _ => id, rfl, h2, by simp⟩
  | _ =>
    cases h
    exact .inr ⟨by simp, by simp, by simp [MemoryCanonical], by simp⟩

/-- A fetch that raises does so under policy fault, at pc or the address after it. -/
theorem fetchBytes_error {s : State} {e : OutOfRange} (h : s.fetchBytes = .error e) :
    s.cfg.oorPolicy = .fault ∧ e.reason = .fetchOutOfRange ∧ 0xFFF < e.value.toNat ∧
      (e.value.toNat = s.pc.toNat ∨ e.value.toNat = s.pc.toNat + 1) := by
  have := s.pc.isLt
  obtain ⟨hp, a, h1, h2, h3, h4, rfl⟩ := readBytes_error h
  simp only [memSize, BitVec.toNat_ofNat] at *
  exact ⟨hp, trivial, by omega, by omega⟩

end Sys2Proof.Machine
end

