-- ==== Sys2Proof/Laws/HostOps.lean ====
section
/-! SUPPORT. What a load, a reset, a tick and a key event can do. -/

namespace Sys2Proof.Machine

/-- Copying an image into memory changes memory alone, keeps its canonical form, and puts each byte in its place. -/
theorem loadImage_spec (s : State) (image : List Byte) (a : Nat) (h : a + image.length ≤ memSize) :
    s.loadImage image a = { s with mem := (s.loadImage image a).mem } ∧
      (MemoryCanonical s → MemoryCanonical (s.loadImage image a)) ∧
      ∀ c, (s.loadImage image a).byteAt c =
        if a ≤ c ∧ c < a + image.length then image.getD (c - a) 0 else s.byteAt c := by
  induction image generalizing s a with
  | nil =>
    refine ⟨rfl, id, fun c => ?_⟩
    rw [if_neg (by simp only [List.length_nil]; omega)]
    rfl
  | cons b bs ih =>
    simp only [List.length_cons] at h ⊢
    obtain ⟨h1, h2, h3⟩ := ih (s.setByte a b) (a + 1) (by omega)
    refine ⟨h1, fun hw => h2 (wf_put hw (by omega)), fun c => ?_⟩
    rw [State.loadImage, h3, byteAt_setByte]
    by_cases hc : c = a
    · subst hc
      simp
    · by_cases hr : a + 1 ≤ c ∧ c < a + 1 + bs.length
      · rw [if_pos hr, if_pos (by omega)]
        obtain ⟨k, rfl⟩ : ∃ k, c = a + 1 + k := ⟨c - (a + 1), by omega⟩
        rw [show a + 1 + k - (a + 1) = k by omega, show a + 1 + k - a = k + 1 by omega]
        rfl
      · rw [if_neg hr, if_neg hc, if_neg (by omega)]

/-- The memory a reset draws is in canonical form. -/
theorem wf_drawnMemory (f : Font) (d : ResetDraw) : Memory.wf f (drawnMemory f d) := by
  refine ⟨?_, fun c hc => ?_⟩
  · apply List.Pairwise.filter
    rw [List.pairwise_map]
    exact List.pairwise_lt_range
  · obtain ⟨h1, h2⟩ := List.mem_filter.1 hc
    obtain ⟨a, ha, rfl⟩ := List.mem_map.1 h1
    exact ⟨List.mem_range.1 ha, (of_decide_eq_true h2).2⟩

/-- The memory a reset draws lists no address of the font. -/
theorem get_drawnMemory_font (f : Font) (d : ResetDraw) {a : Nat} (h : fontBase ≤ a ∧ a < fontBase + 80) :
    Memory.get f (drawnMemory f d) a = Memory.blank f a := by
  have hn : ∀ c ∈ drawnMemory f d, c.1 ≠ a := by
    intro c hc he
    exact (of_decide_eq_true (List.mem_filter.1 hc).2).1 (he ▸ h)
  generalize drawnMemory f d = m at hn
  induction m with
  | nil => rfl
  | cons c rest ih =>
    obtain ⟨k, b⟩ := c
    have hk : a ≠ k := fun he => hn (k, b) (by simp) he.symm
    rw [Memory.get, if_neg hk]
    exact ih fun c hc => hn c (by simp [hc])

/-- A reset under RESET_VALUES = zero. -/
theorem hostReset_zero {s : State} (h : s.cfg.resetValues = .zero) :
    s.hostReset = { State.reset with cfg := s.cfg, freeCount := s.freeCount } := by
  simp only [State.hostReset, h]

/-- A reset under RESET_VALUES = unknown. -/
theorem hostReset_unknown {s : State} {d : ResetDraw} (h : s.cfg.resetValues = .unknown)
    (hd : Config.resetDraw s.freeCount = d) :
    s.hostReset = { State.reset with
      cfg := s.cfg, freeCount := s.freeCount + 1,
      v := d.v, index := d.index, sp := d.sp, stack := d.stack, dt := d.dt, st := d.st,
      mem := drawnMemory s.cfg.font d, fb := d.fb, key := d.key } := by
  subst hd
  simp only [State.hostReset, h]

/-- What every reset does, whatever RESET_VALUES is (70_reset_and_hazards.md R270). -/
theorem hostReset_always (s : State) :
    s.hostReset.pc = 0x200 ∧ s.hostReset.execState = .running ∧ s.hostReset.cfg = s.cfg ∧
      (s.hostReset.mem = [] ∨ ∃ d, s.hostReset.mem = drawnMemory s.cfg.font d) := by
  cases h : s.cfg.resetValues with
  | zero => rw [hostReset_zero h]; exact ⟨rfl, rfl, rfl, .inl rfl⟩
  | unknown =>
    rw [hostReset_unknown h rfl]
    generalize hm : drawnMemory s.cfg.font _ = m
    exact ⟨rfl, rfl, rfl, .inr ⟨_, hm.symm⟩⟩

/-- A key-down during a wait. -/
theorem keyDown_waiting {s : State} {x : RegIdx} (h : s.execState = .waitingForKey x) (k : KeyCode) :
    s.keyDown k =
      { (s.setReg x (BitVec.ofNat 8 k.val)) with key := s.key.set k.val true k.isLt, execState := .running } := by
  unfold State.keyDown
  rw [h]
  rfl

/-- A key-down at any other time sets the latch alone. -/
theorem keyDown_other {s : State} (h : ∀ x, s.execState ≠ .waitingForKey x) (k : KeyCode) :
    s.keyDown k = { s with key := s.key.set k.val true k.isLt } := by
  unfold State.keyDown
  cases he : s.execState with
  | waitingForKey x => exact absurd he (h x)
  | running => rfl
  | faulted i => rfl

theorem toNat_countDown (b : Byte) : (countDown b).toNat = b.toNat - 1 := by
  unfold countDown
  split
  · rename_i h
    simp [h]
  · rename_i h
    have h0 : b.toNat ≠ 0 := fun hc => h (BitVec.eq_of_toNat_eq hc)
    have := b.isLt
    rw [BitVec.toNat_sub]
    simp
    omega

/-- A host step is a step with the host's draw at hand. -/
theorem hostStep_next {s t : State} {r : Byte} {res : HostResult} (h : s.hostStep r = .next (t, res)) :
    ∃ u, step { s with draw := some r } = .next u ∧ t = { u with draw := none } ∧ res = .redraw u.redraw := by
  unfold State.hostStep at h
  split at h
  · rename_i u hu
    cases h
    exact ⟨u, hu, rfl, rfl⟩
  · cases h
  · cases h

end Sys2Proof.Machine
end

