-- ==== Sys2Proof/Laws/PerInstr.lean ====
section
/-! SUPPORT. Family RoundTrip: the word of a well-formed instruction decodes to it, constructor by constructor. -/

namespace Sys2Proof.Laws.RoundTrip

/-- Decoding the instruction's word gives it back, with every operand. -/
def Statement (i : Instr) : Prop := i.wellFormed = true → decodeWord (encodeWord i) = some i

theorem cls : Statement .cls := fun _ => by decide
theorem ret : Statement .ret := fun _ => by decide
theorem jp (nnn : BitVec 12) : Statement (.jp nnn) := fun _ => by simp [decodeWord, encodeWord, decodeFields]
theorem call (nnn : BitVec 12) : Statement (.call nnn) := fun _ => by simp [decodeWord, encodeWord, decodeFields]
theorem seImm (x : RegIdx) (nn : Byte) : Statement (.seImm x nn) := fun _ => by simp [decodeWord, encodeWord, decodeFields]
theorem sneImm (x : RegIdx) (nn : Byte) : Statement (.sneImm x nn) := fun _ => by simp [decodeWord, encodeWord, decodeFields]
theorem seReg (x y : RegIdx) : Statement (.seReg x y) := fun _ => by simp [decodeWord, encodeWord, decodeFields]
theorem sneReg (x y : RegIdx) : Statement (.sneReg x y) := fun _ => by simp [decodeWord, encodeWord, decodeFields]
theorem ldImm (x : RegIdx) (nn : Byte) : Statement (.ldImm x nn) := fun _ => by simp [decodeWord, encodeWord, decodeFields]
theorem addImm (x : RegIdx) (nn : Byte) : Statement (.addImm x nn) := fun _ => by simp [decodeWord, encodeWord, decodeFields]
theorem ldReg (x y : RegIdx) : Statement (.ldReg x y) := fun _ => by simp [decodeWord, encodeWord, decodeFields, decodeAlu]
theorem orReg (x y : RegIdx) : Statement (.orReg x y) := fun _ => by simp [decodeWord, encodeWord, decodeFields, decodeAlu]
theorem andReg (x y : RegIdx) : Statement (.andReg x y) := fun _ => by simp [decodeWord, encodeWord, decodeFields, decodeAlu]
theorem xorReg (x y : RegIdx) : Statement (.xorReg x y) := fun _ => by simp [decodeWord, encodeWord, decodeFields, decodeAlu]
theorem addReg (x y : RegIdx) : Statement (.addReg x y) := fun _ => by simp [decodeWord, encodeWord, decodeFields, decodeAlu]
theorem subReg (x y : RegIdx) : Statement (.subReg x y) := fun _ => by simp [decodeWord, encodeWord, decodeFields, decodeAlu]
theorem shr (x y : RegIdx) : Statement (.shr x y) := fun _ => by simp [decodeWord, encodeWord, decodeFields, decodeAlu]
theorem subn (x y : RegIdx) : Statement (.subn x y) := fun _ => by simp [decodeWord, encodeWord, decodeFields, decodeAlu]
theorem shl (x y : RegIdx) : Statement (.shl x y) := fun _ => by simp [decodeWord, encodeWord, decodeFields, decodeAlu]
theorem ldI (nnn : BitVec 12) : Statement (.ldI nnn) := fun _ => by simp [decodeWord, encodeWord, decodeFields]
theorem jpV0 (nnn : BitVec 12) : Statement (.jpV0 nnn) := fun _ => by simp [decodeWord, encodeWord, decodeFields]
theorem rnd (x : RegIdx) (nn : Byte) : Statement (.rnd x nn) := fun _ => by simp [decodeWord, encodeWord, decodeFields]
theorem drw (x y : RegIdx) (n : Nat) : Statement (.drw x y n) := fun h => by
  have hn : n ≤ 15 := of_decide_eq_true h
  have h16 : n < 16 := by omega
  simpa [decodeWord, encodeWord, decodeFields] using h16
theorem skp (x : RegIdx) : Statement (.skp x) := fun _ => by simp [decodeWord, encodeWord, decodeFields, decodeKeyTest]
theorem sknp (x : RegIdx) : Statement (.sknp x) := fun _ => by simp [decodeWord, encodeWord, decodeFields, decodeKeyTest]
theorem ldVxDt (x : RegIdx) : Statement (.ldVxDt x) := fun _ => by simp [decodeWord, encodeWord, decodeFields, decodeMisc]
theorem ldDtVx (x : RegIdx) : Statement (.ldDtVx x) := fun _ => by simp [decodeWord, encodeWord, decodeFields, decodeMisc]
theorem ldStVx (x : RegIdx) : Statement (.ldStVx x) := fun _ => by simp [decodeWord, encodeWord, decodeFields, decodeMisc]
theorem ldVxK (x : RegIdx) : Statement (.ldVxK x) := fun _ => by simp [decodeWord, encodeWord, decodeFields, decodeMisc]
theorem addI (x : RegIdx) : Statement (.addI x) := fun _ => by simp [decodeWord, encodeWord, decodeFields, decodeMisc]
theorem ldF (x : RegIdx) : Statement (.ldF x) := fun _ => by simp [decodeWord, encodeWord, decodeFields, decodeMisc]
theorem ldB (x : RegIdx) : Statement (.ldB x) := fun _ => by simp [decodeWord, encodeWord, decodeFields, decodeMisc]
theorem stRegs (x : RegIdx) : Statement (.stRegs x) := fun _ => by simp [decodeWord, encodeWord, decodeFields, decodeMisc]
theorem ldRegs (x : RegIdx) : Statement (.ldRegs x) := fun _ => by simp [decodeWord, encodeWord, decodeFields, decodeMisc]

end Sys2Proof.Laws.RoundTrip
end

