-- ==== Sys2Proof/Tests/Slice0.lean ====
section
/-! SUPPORT. Tests whose expected results are the vectors of 95_test_vectors.md (named in each comment) or the encodings of
30_encoding.md R85, and a witness for the hypotheses of every statement that has some. -/

namespace Sys2Proof.Tests

open Sys2Proof Sys2Proof.Machine

/-! ## Helpers -/

/-- The reset state with some registers set. -/
def regs (l : List (RegIdx × Byte)) : State := l.foldl (fun s p => s.setReg p.1 p.2) State.reset

/-- Bytes placed in memory from an address upward. -/
def bytesAt (a : Nat) (bs : List Byte) (s : State) : State := s.loadImage bs a

/-- The same machine under policy wrap. -/
def wrapped (s : State) : State := { s with cfg := { s.cfg with oorPolicy := .wrap } }

/-- The same machine with SHIFT_SOURCE = vy. -/
def shiftingVy (s : State) : State := { s with cfg := { s.cfg with shiftSource := .vy } }

/-- One step that runs the word `w`. -/
def stepOn (w : Nat) (s : State) : StepOutcome := step (s.withFetchWord 16 w)

/-- The step answers a next state of which `p` holds. -/
def got (o : StepOutcome) (p : State → Bool) : Bool :=
  match o with
  | .next t => p t
  | .fault _ => false
  | .refused _ => false

/-- A host operation answers a next state and a result of which `p` holds. -/
def gotOp (o : Host.Outcome (State × HostResult) Fault Refusal) (p : State → HostResult → Bool) : Bool :=
  match o with
  | .next (t, r) => p t r
  | .fault _ => false
  | .refused _ => false

/-- The fault an out-of-range step leaves, with pc unchanged. -/
def faultedWith (reason : FaultReason) (pc value : Word) (t : State) : Bool :=
  decide (t.execState = .faulted ⟨reason, pc, value⟩ ∧ t.pc = pc ∧ t.redraw = false)

/-- A pixel of the state. -/
def px (t : State) (x : Fin 64) (y : Fin 32) : Bool := t.pixelAt (x, y)

/-! ## Well-formedness: the one check -/

theorem test_wellFormed_refuses_row_count_16 : (Instr.drw 0 0 16).wellFormed = false := by decide
theorem test_wellFormed_admits_row_counts_0_and_15 :
    (Instr.drw 0 0 0).wellFormed = true ∧ (Instr.drw 0 0 15).wellFormed = true := by decide

/-! ## Decoding: every row of 30_encoding.md R85, written out bit by bit -/

theorem test_decode_control :
    decodeTableWord 16 0b0000000011100000 = some .cls ∧
    decodeTableWord 16 0b0000000011101110 = some .ret ∧
    decodeTableWord 16 0b0001001000110100 = some (.jp 0x234) ∧
    decodeTableWord 16 0b0010111111111110 = some (.call 0xFFE) ∧
    decodeTableWord 16 0b0011001101000010 = some (.seImm 3 0x42) ∧
    decodeTableWord 16 0b0100111110000001 = some (.sneImm 0xF 0x81) ∧
    decodeTableWord 16 0b0101000100100000 = some (.seReg 1 2) ∧
    decodeTableWord 16 0b1001111000010000 = some (.sneReg 0xE 1) ∧
    decodeTableWord 16 0b1011001100000000 = some (.jpV0 0x300) := by decide

theorem test_decode_alu :
    decodeTableWord 16 0b0110101001111111 = some (.ldImm 0xA 0x7F) ∧
    decodeTableWord 16 0b0111000011111111 = some (.addImm 0 0xFF) ∧
    decodeTableWord 16 0b1000000100100000 = some (.ldReg 1 2) ∧
    decodeTableWord 16 0b1000000100100001 = some (.orReg 1 2) ∧
    decodeTableWord 16 0b1000000100100010 = some (.andReg 1 2) ∧
    decodeTableWord 16 0b1000000100100011 = some (.xorReg 1 2) ∧
    decodeTableWord 16 0b1000000100100100 = some (.addReg 1 2) ∧
    decodeTableWord 16 0b1000000100100101 = some (.subReg 1 2) ∧
    decodeTableWord 16 0b1000000100100110 = some (.shr 1 2) ∧
    decodeTableWord 16 0b1000000100100111 = some (.subn 1 2) ∧
    decodeTableWord 16 0b1000000100101110 = some (.shl 1 2) ∧
    decodeTableWord 16 0b1100000100001111 = some (.rnd 1 0x0F) := by decide

theorem test_decode_index_display_keys_timers :
    decodeTableWord 16 0b1010001011110000 = some (.ldI 0x2F0) ∧
    decodeTableWord 16 0b1101000000011111 = some (.drw 0 1 15) ∧
    decodeTableWord 16 0b1110000110011110 = some (.skp 1) ∧
    decodeTableWord 16 0b1110000110100001 = some (.sknp 1) ∧
    decodeTableWord 16 0b1111001100000111 = some (.ldVxDt 3) ∧
    decodeTableWord 16 0b1111001100010101 = some (.ldDtVx 3) ∧
    decodeTableWord 16 0b1111001100011000 = some (.ldStVx 3) ∧
    decodeTableWord 16 0b1111010100001010 = some (.ldVxK 5) ∧
    decodeTableWord 16 0b1111000000011110 = some (.addI 0) ∧
    decodeTableWord 16 0b1111010100101001 = some (.ldF 5) ∧
    decodeTableWord 16 0b1111010000110011 = some (.ldB 4) ∧
    decodeTableWord 16 0b1111001101010101 = some (.stRegs 3) ∧
    decodeTableWord 16 0b1111001101100101 = some (.ldRegs 3) := by decide

/-- Vectors F5, C17, A28: words next to recognized ones. -/
theorem test_decode_rejects :
    decodeTableWord 16 0x0000 = none ∧ decodeTableWord 16 0x0123 = none ∧ decodeTableWord 16 0x5121 = none ∧
    decodeTableWord 16 0x8128 = none ∧ decodeTableWord 16 0x9121 = none ∧ decodeTableWord 16 0xE000 = none ∧
    decodeTableWord 16 0xF000 = none ∧ decodeTableWord 16 0xFFFF = none := by decide

/-- The listings of programs P1, P2 and P3, and rows of R85 with a named operand. -/
theorem test_assembly :
    (Instr.addImm 1 0x03).assembly = "ADD V1, 0x03" ∧ (Instr.jp 0x204).assembly = "JP 0x204" ∧
    (Instr.ldB 0).assembly = "LD B, V0" ∧ (Instr.ldRegs 2).assembly = "LD V2, [I]" ∧
    (Instr.drw 0 1 2).assembly = "DRW V0, V1, 0x2" ∧ Instr.ret.assembly = "RET" := by decide

/-! ## Control transfer -/

/-- C1. -/
theorem test_jp : got (stepOn 0x1234 State.reset) (fun t => t.pc = 0x234) = true := by decide
/-- C5. -/
theorem test_call_fills_the_stack :
    got (stepOn 0x2400 { State.reset with sp := 15 })
      (fun t => t.stack.get 15 = 0x202 ∧ t.sp = 16 ∧ t.pc = 0x400) = true := by decide
/-- C7. -/
theorem test_call_on_full_stack :
    got (stepOn 0x2400 { State.reset with sp := 16, pc := 0x300 })
      (fun t => t.pc = 0x302 ∧ t.sp = 16 ∧ t.stack = State.reset.stack) = true := by decide
/-- C4. -/
theorem test_ret :
    got (stepOn 0x00EE { State.reset with sp := 1, stack := Vector.replicate 16 0x206, pc := 0x212 })
      (fun t => t.pc = 0x206 ∧ t.sp = 0) = true := by decide
/-- C8. -/
theorem test_ret_on_empty_stack :
    got (stepOn 0x00EE { State.reset with pc := 0x300 }) (fun t => t.pc = 0x302 ∧ t.sp = 0) = true := by decide
/-- C10, C11. -/
theorem test_jpV0_does_not_truncate :
    got (stepOn 0xB0FF (regs [(0, 0xFF)])) (fun t => t.pc = 0x1FE) = true ∧
    got (stepOn 0xBFFF (regs [(0, 0xFF)])) (fun t => t.pc = 0x10FE ∧ t.execState = .running) = true := by decide
/-- C13, C14. -/
theorem test_skips_on_immediate :
    got (stepOn 0x3342 (regs [(3, 0x42)])) (fun t => t.pc = 0x204) = true ∧
    got (stepOn 0x3343 (regs [(3, 0x42)])) (fun t => t.pc = 0x202) = true ∧
    got (stepOn 0x4342 (regs [(3, 0x42)])) (fun t => t.pc = 0x202) = true ∧
    got (stepOn 0x4300 (regs [(3, 0x42)])) (fun t => t.pc = 0x204) = true := by decide
/-- C15, C16. -/
theorem test_skips_on_registers :
    got (stepOn 0x5120 (regs [(1, 7), (2, 7)])) (fun t => t.pc = 0x204) = true ∧
    got (stepOn 0x9120 (regs [(1, 7), (2, 7)])) (fun t => t.pc = 0x202) = true ∧
    got (stepOn 0x5120 (regs [(1, 7), (2, 8)])) (fun t => t.pc = 0x202) = true ∧
    got (stepOn 0x9120 (regs [(1, 7), (2, 8)])) (fun t => t.pc = 0x204) = true := by decide
/-- C17. -/
theorem test_unrecognized_only_advances :
    got (stepOn 0x5121 (regs [(1, 7), (2, 7)])) (fun t => t.pc = 0x202 ∧ t.redraw = false ∧ t.reg 1 = 7) = true := by decide

/-! ## Register loads, ALU, random -/

/-- E2. -/
theorem test_ldImm : got (stepOn 0x6A7F State.reset) (fun t => t.reg 0xA = 0x7F) = true := by decide
/-- A1. -/
theorem test_addImm_sets_no_flag :
    got (stepOn 0x7003 (regs [(0, 0xFE), (0xF, 0x55)])) (fun t => t.reg 0 = 0x01 ∧ t.reg 0xF = 0x55) = true := by decide
/-- A4. -/
theorem test_ldReg : got (stepOn 0x8120 (regs [(2, 0x33)])) (fun t => t.reg 1 = 0x33) = true := by decide
/-- A5. -/
theorem test_orReg_sets_no_flag :
    got (stepOn 0x8121 (regs [(1, 0x0F), (2, 0xF0), (0xF, 0x07)])) (fun t => t.reg 1 = 0xFF ∧ t.reg 0xF = 0x07) = true := by
  decide
/-- A6. -/
theorem test_andReg : got (stepOn 0x8122 (regs [(1, 0x3C), (2, 0x0F)])) (fun t => t.reg 1 = 0x0C) = true := by decide
/-- A7. -/
theorem test_xorReg : got (stepOn 0x8123 (regs [(1, 0xFF), (2, 0x0F)])) (fun t => t.reg 1 = 0xF0) = true := by decide
/-- E3. -/
theorem test_addReg :
    got (stepOn 0x8124 (regs [(1, 0xFF), (2, 0x01)])) (fun t => t.reg 1 = 0x00 ∧ t.reg 0xF = 1) = true ∧
    got (stepOn 0x8124 (regs [(1, 0x01), (2, 0x01)])) (fun t => t.reg 1 = 0x02 ∧ t.reg 0xF = 0) = true := by decide
/-- A12, A14: VF as destination, and as source. -/
theorem test_addReg_with_vf :
    got (stepOn 0x8FF4 (regs [(0xF, 0x90)])) (fun t => t.reg 0xF = 1) = true ∧
    got (stepOn 0x81F4 (regs [(1, 0x10), (0xF, 0x05)])) (fun t => t.reg 1 = 0x15 ∧ t.reg 0xF = 0) = true := by decide
/-- E4. -/
theorem test_subReg :
    got (stepOn 0x8125 (regs [(1, 5), (2, 3)])) (fun t => t.reg 1 = 2 ∧ t.reg 0xF = 1) = true ∧
    got (stepOn 0x8125 (regs [(1, 3), (2, 5)])) (fun t => t.reg 1 = 0xFE ∧ t.reg 0xF = 0) = true := by decide
/-- A15: the flag is a strict comparison. -/
theorem test_subReg_of_equals :
    got (stepOn 0x8125 (regs [(1, 7), (2, 7)])) (fun t => t.reg 1 = 0 ∧ t.reg 0xF = 0) = true := by decide
/-- A18, A20. -/
theorem test_subn :
    got (stepOn 0x8127 (regs [(1, 3), (2, 5)])) (fun t => t.reg 1 = 2 ∧ t.reg 0xF = 1) = true ∧
    got (stepOn 0x8127 (regs [(1, 4), (2, 4)])) (fun t => t.reg 1 = 0 ∧ t.reg 0xF = 0) = true := by decide
/-- A23: both values of SHIFT_SOURCE. -/
theorem test_shr_by_shift_source :
    got (stepOn 0x8126 (regs [(1, 0), (2, 3)])) (fun t => t.reg 1 = 0 ∧ t.reg 0xF = 0) = true ∧
    got (stepOn 0x8126 (shiftingVy (regs [(1, 0), (2, 3)]))) (fun t => t.reg 1 = 1 ∧ t.reg 0xF = 1) = true := by decide
/-- A24. -/
theorem test_shr_of_vf : got (stepOn 0x8F06 (regs [(0xF, 3)])) (fun t => t.reg 0xF = 1) = true := by decide
/-- A25, A27. -/
theorem test_shl :
    got (stepOn 0x820E (regs [(2, 0x81)])) (fun t => t.reg 2 = 0x02 ∧ t.reg 0xF = 1) = true ∧
    got (stepOn 0x8F0E (regs [(0xF, 3)])) (fun t => t.reg 0xF = 0) = true := by decide
/-- A29. -/
theorem test_rnd_masks_the_draw :
    gotOp (hostOp (.step 0xB6) (State.reset.withFetchWord 16 0xC10F))
      (fun t r => t.reg 1 = 0x06 ∧ r = .redraw false ∧ t.draw = none) = true := by decide

/-! ## Index register and memory -/

/-- M1. -/
theorem test_ldI : got (stepOn 0xA2F0 State.reset) (fun t => t.index = 0x2F0) = true := by decide
/-- M3, M4. -/
theorem test_addI :
    got (stepOn 0xF01E { regs [(0, 2)] with index := 0xFFFF }) (fun t => t.index = 1) = true ∧
    got (stepOn 0xFF1E { regs [(0xF, 0x20)] with index := 0x10 }) (fun t => t.index = 0x30 ∧ t.reg 0xF = 0x20) = true := by
  decide
/-- M5, M7. -/
theorem test_ldF :
    got (stepOn 0xF529 (regs [(5, 0x0B)])) (fun t => t.index = 0x87) = true ∧
    got (stepOn 0xF029 (regs [(0, 0x1A)])) (fun t => t.index = 0x82) = true := by decide
/-- E5. -/
theorem test_ldB :
    got (stepOn 0xF433 { regs [(4, 0xEA)] with index := 0x300 })
      (fun t => t.byteAt 0x300 = 2 ∧ t.byteAt 0x301 = 3 ∧ t.byteAt 0x302 = 4 ∧ t.index = 0x300) = true := by decide
/-- M13. -/
theorem test_ldB_out_of_range_writes_nothing :
    got (stepOn 0xF033 { regs [(0, 0xEA)] with index := 0xFFE })
      (fun t => faultedWith .dataOutOfRange 0x200 0x1000 t ∧ t.byteAt 0xFFE = 0 ∧ t.byteAt 0xFFF = 0) = true := by decide
/-- M9. -/
theorem test_stRegs :
    got (stepOn 0xF255 { regs [(0, 1), (1, 2), (2, 3)] with index := 0x300 })
      (fun t => t.byteAt 0x300 = 1 ∧ t.byteAt 0x301 = 2 ∧ t.byteAt 0x302 = 3 ∧ t.byteAt 0x303 = 0 ∧ t.index = 0x300)
        = true := by decide
/-- M12: both values of OOR_POLICY. -/
theorem test_stRegs_at_the_end_of_memory :
    got (stepOn 0xF155 { regs [(0, 0xAA), (1, 0xBB)] with index := 0xFFF })
      (fun t => faultedWith .dataOutOfRange 0x200 0x1000 t ∧ t.byteAt 0xFFF = 0) = true ∧
    got (stepOn 0xF155 (wrapped { regs [(0, 0xAA), (1, 0xBB)] with index := 0xFFF }))
      (fun t => t.byteAt 0xFFF = 0xAA ∧ t.byteAt 0x000 = 0xBB ∧ t.pc = 0x202) = true := by decide
/-- M10. -/
theorem test_ldRegs :
    got (stepOn 0xF265 (bytesAt 0x300 [2, 3, 4, 5] { State.reset with index := 0x300 }))
      (fun t => t.reg 0 = 2 ∧ t.reg 1 = 3 ∧ t.reg 2 = 4 ∧ t.reg 3 = 0 ∧ t.index = 0x300) = true := by decide
/-- M14. -/
theorem test_ldRegs_reads_only_what_it_loads :
    got (stepOn 0xF065 (bytesAt 0xFFF [0x77] { State.reset with index := 0xFFF }))
      (fun t => t.reg 0 = 0x77 ∧ t.pc = 0x202) = true := by decide

/-! ## Display -/

/-- E1. -/
theorem test_cls :
    got (stepOn 0x00E0 { State.reset with fb := Vector.replicate 64 (Vector.replicate 32 true) })
      (fun t => t.fb = State.reset.fb ∧ t.redraw = true) = true := by decide
/-- D4: both coordinates wrap. -/
theorem test_drw_wraps :
    got (stepOn 0xD012 (bytesAt 0x300 [0xF0, 0x80] { regs [(0, 0x3E), (1, 0x1F)] with index := 0x300 }))
      (fun t => px t 62 31 ∧ px t 63 31 ∧ px t 0 31 ∧ px t 1 31 ∧ !px t 2 31 ∧ px t 62 0 ∧ !px t 63 0 ∧
        t.reg 0xF = 0 ∧ t.redraw = true) = true := by decide
/-- D9. -/
theorem test_drw_erases_and_collides :
    got (stepOn 0xD001 (bytesAt 0x300 [0x10]
        { State.reset with index := 0x300, fb := Framebuffer.setPixel State.reset.fb 3 0 true }))
      (fun t => !px t 3 0 ∧ t.reg 0xF = 1) = true := by decide

/-! ## Keys and timers -/

/-- K1, K2. -/
theorem test_skp_sknp :
    got (stepOn 0xE19E ((regs [(1, 5)]).keyDown 5)) (fun t => t.pc = 0x204) = true ∧
    got (stepOn 0xE1A1 ((regs [(1, 5)]).keyDown 5)) (fun t => t.pc = 0x202) = true ∧
    got (stepOn 0xE19E (regs [(1, 5)])) (fun t => t.pc = 0x202) = true ∧
    got (stepOn 0xE1A1 (regs [(1, 5)])) (fun t => t.pc = 0x204) = true := by decide
/-- K3, K4: both values of OOR_POLICY. -/
theorem test_skp_out_of_range :
    got (stepOn 0xE09E (regs [(0, 0x10)])) (faultedWith .keyOutOfRange 0x200 0x10) = true ∧
    got (stepOn 0xE09E ((wrapped (regs [(0, 0x15)])).keyDown 5)) (fun t => t.pc = 0x204) = true := by decide
/-- K5. -/
theorem test_ldVxDt : got (stepOn 0xF307 { State.reset with dt := 0x2A }) (fun t => t.reg 3 = 0x2A) = true := by decide
/-- K6. -/
theorem test_ldDtVx : got (stepOn 0xF315 (regs [(3, 0x3C)])) (fun t => t.dt = 0x3C ∧ t.st = 0) = true := by decide
/-- K7. -/
theorem test_ldStVx : got (stepOn 0xF318 (regs [(3, 0x02)])) (fun t => t.st = 2 ∧ t.dt = 0) = true := by decide
/-- E10. -/
theorem test_ldVxK_enters_the_wait :
    got (stepOn 0xF50A State.reset)
      (fun t => t.pc = 0x202 ∧ t.execState = .waitingForKey 5 ∧ t.reg 5 = 0) = true := by decide

/-! ## Fetch and host operations -/

/-- F2, F3: a fetch across the end of memory under both policies. -/
theorem test_fetch_at_the_end_of_memory :
    got (step { State.reset with pc := 0xFFF }) (faultedWith .fetchOutOfRange 0xFFF 0x1000) = true ∧
    got (step (wrapped (bytesAt 0 [0x34] (bytesAt 0xFFF [0x12] { State.reset with pc := 0xFFF }))))
      (fun t => t.pc = 0x234) = true := by decide
/-- 60_exceptions.md R230: the codes of the three causes. -/
theorem test_fault_codes :
    FaultReason.fetchOutOfRange.code = 1 ∧ FaultReason.dataOutOfRange.code = 2 ∧ FaultReason.keyOutOfRange.code = 3 := by
  decide
/-- F4. -/
theorem test_fetch_at_an_odd_address :
    got (step (bytesAt 0x201 [0x60, 0x07] { State.reset with pc := 0x201 })) (fun t => t.reg 0 = 7 ∧ t.pc = 0x203) = true := by
  decide
/-- E9, K9. -/
theorem test_tick :
    gotOp (hostOp .tick { State.reset with st := 1 }) (fun t r => t.st = 0 ∧ r = .tone false) = true ∧
    gotOp (hostOp .tick { State.reset with st := 2, dt := 5 }) (fun t r => t.st = 1 ∧ t.dt = 4 ∧ r = .tone true) = true ∧
    gotOp (hostOp .tick State.reset) (fun t r => t.st = 0 ∧ t.dt = 0 ∧ r = .tone false) = true := by decide
/-- E10, K14. -/
theorem test_keyDown :
    gotOp (hostOp (.keyDown 0xC) { State.reset with execState := .waitingForKey 5 })
      (fun t _ => t.reg 5 = 0xC ∧ t.execState = .running ∧ t.pressed 0xC) = true ∧
    gotOp (hostOp (.keyDown 9) State.reset) (fun t _ => t.pressed 9 ∧ t.v = State.reset.v) = true := by decide
/-- K12. -/
theorem test_keyUp_during_a_wait :
    gotOp (hostOp (.keyUp 4) { State.reset with key := Vector.replicate 16 true, execState := .waitingForKey 5 })
      (fun t _ => !t.pressed 4 ∧ t.pressed 5 ∧ t.execState = .waitingForKey 5) = true := by decide
/-- K15, F7: what a faulted core does on a step, and a reset. -/
theorem test_faulted_core :
    got (step { State.reset with execState := .faulted ⟨.dataOutOfRange, 0x200, 0x1000⟩ })
      (fun t => t.pc = 0x200 ∧ t.execState = .faulted ⟨.dataOutOfRange, 0x200, 0x1000⟩) = true ∧
    gotOp (hostOp .reset { State.reset with execState := .faulted ⟨.dataOutOfRange, 0x300, 0x1000⟩, pc := 0x300 })
      (fun t _ => t.execState = .running ∧ t.pc = 0x200 ∧ t.byteAt 0x50 = 0xF0 ∧ t.byteAt 0x51 = 0x90 ∧ t.byteAt 0x200 = 0)
        = true := by decide
/-- F10: a load places its first byte at 0x200. -/
theorem test_load :
    gotOp (hostOp (.load [0x60, 0x01]) State.reset)
      (fun t r => t.byteAt 0x200 = 0x60 ∧ t.byteAt 0x201 = 0x01 ∧ r = .loadOk) = true := by decide

/-! ## Witnesses: states and operands that meet every hypothesis of a statement, at a boundary where there is one -/

/-- DecodeOfEncodeIsIdentity, at the largest row count. -/
theorem witness_wellFormed : (Instr.drw 0xF 0xF 15).wellFormed = true := by decide

/-- DecodedBytesAreTheEncoding. -/
theorem witness_decoded : decode [0xD0, 0x1F, 0x77] = .instr (.drw 0 1 15) [0x77] := by decide

/-- DecodeFollowsTheOpcodeMap: a recognized word, an unrecognized one, and a row a word selects. -/
theorem witness_opcode_map :
    decodeWord 0x00E0 = some .cls ∧ decodeWord 0x00E1 = none ∧ opcodeTable[0]? = some ⟨0x00E0, 0xFFFF⟩ ∧
    OpcodeRow.selectedBy ⟨0x00E0, 0xFFFF⟩ 0x00E0 := by decide

/-- UnrecognizedWordsByFamily: each family that has unrecognized words. -/
theorem witness_unrecognized :
    decodeWord 0x0FFF = none ∧ decodeWord 0x5121 = none ∧ decodeWord 0x812F = none ∧ decodeWord 0x9FFF = none ∧
    decodeWord 0xE19F = none ∧ decodeWord 0xF166 = none := by decide

/-- A running core at the last pc that fetches under policy fault, with CLS there. -/
def atLastFetch : State := bytesAt 0xFFE [0x00, 0xE0] { State.reset with pc := 0xFFE }

/-- StepRunsTheDecodedInstruction, RedrawAfterDisplayInstructionsOnly: the last pc that fetches under policy fault. -/
theorem witness_step_runs_decoded :
    atLastFetch.pc.toNat + 1 < 4096 ∧ atLastFetch.execState = .running ∧ atLastFetch.fetchBytes = .ok [0x00, 0xE0] ∧
    decode [0x00, 0xE0] = .instr .cls [] ∧ got (step atLastFetch) (fun t => t.redraw) = true := by decide

/-- StepRunsTheDecodedInstruction: the clauses on policy wrap and on a word of the opcode table. -/
theorem witness_step_runs_placed_word :
    (wrapped State.reset).cfg.oorPolicy = .wrap ∧ decodeTableWord 16 0xFF65 = some (.ldRegs 0xF) := by decide

/-- UnrecognizedWordOnlyAdvances, DrawMattersToRndOnly: the reset state fetches an unrecognized word. -/
theorem witness_unrecognized_fetched :
    State.reset.execState = .running ∧ State.reset.fetchBytes = .ok [0x00, 0x00] ∧
    decode [0x00, 0x00] = .rejected (.unrecognized 0) := by decide

/-- DrawMattersToRndOnly: its hypothesis as stated. -/
theorem witness_no_rnd_fetched :
    ∀ bytes rest x nn, State.reset.fetchBytes = .ok bytes → decode bytes ≠ .instr (.rnd x nn) rest := by
  intro bytes rest x nn h
  rw [witness_unrecognized_fetched.2.1] at h
  cases h
  rw [witness_unrecognized_fetched.2.2]
  exact fun hd => by cases hd

/-- FetchOutsideMemoryIsTaken: both values of the record, at the first and the last pc that raise. -/
theorem witness_fetch_outside :
    State.reset.cfg.oorPolicy = .fault ∧ State.reset.execState = .running ∧
    0xFFE < ({ State.reset with pc := 0x0FFF } : State).pc.toNat ∧
    0xFFE < ({ State.reset with pc := 0xFFFF } : State).pc.toNat := by decide

/-- RaisingStepCommitsNothing: vector F2. -/
theorem witness_raising_step :
    got (step { State.reset with pc := 0xFFF })
      (fun t => t.execState = .faulted ⟨.fetchOutOfRange, 0xFFF, 0x1000⟩) = true := by decide

/-- A state that meets the invariants and lists a byte of memory. -/
def soundState : State := { State.reset with mem := [(0xFFF, 0x01)], pc := 0x10FE, stack := Vector.replicate 16 0x1000 }

/-- StepKeepsMemoryCanonicalAndRecordTrue, HostOperationsKeepTheInvariant: a running core about to fault, and the Faulted
core its step answers. -/
theorem witness_inv : Inv soundState ∧ ∃ t, step soundState = .next t ∧ Inv t ∧ t.execState ≠ .running := by
  have hm : ∀ s : State, s.mem = soundState.mem → s.cfg = soundState.cfg → MemoryCanonical s := by
    intro s hs hc
    rw [MemoryCanonical, hs, hc]
    decide
  refine ⟨⟨hm _ rfl rfl, fun info h => by cases h⟩, _, rfl, ⟨hm _ rfl rfl, ?_⟩, by decide⟩
  intro info h
  cases h
  exact ⟨rfl, rfl, by decide⟩

/-- HostOperationsKeepTheInvariant: every operation answers. -/
theorem witness_host_operations :
    ∀ op ∈ [HostOp.reset, .load [0x12], .step 0, .tick, .keyDown 0xF, .keyUp 0, .readFb, .readStatus],
      gotOp (hostOp op State.reset) (fun t _ => t.execState = .running) = true := by decide

/-- StepKeepsPcBounded: the largest pc and return address. -/
theorem witness_pc_bounded :
    soundState.cfg.oorPolicy = .fault ∧ ControlBounded soundState ∧ ∃ t, step soundState = .next t := by
  refine ⟨rfl, ⟨by decide, fun k => ?_⟩, _, rfl⟩
  simp [soundState, Vector.get_eq_getElem]

/-- OnlyTheNamedInstructionsWrite, OnlyTheListedRegistersChange: for every clause an instruction that changes what it names. -/
theorem witness_each_state_is_written :
    got (exec .cls { State.reset with fb := Vector.replicate 64 (Vector.replicate 32 true) })
      (fun t => t.fb = State.reset.fb) = true ∧
    got (exec (.call 0x400) State.reset) (fun t => t.stack ≠ State.reset.stack ∧ t.sp ≠ State.reset.sp) = true ∧
    got (exec (.ldDtVx 1) (regs [(1, 7)])) (fun t => t.dt ≠ State.reset.dt) = true ∧
    got (exec (.ldStVx 1) (regs [(1, 7)])) (fun t => t.st ≠ State.reset.st) = true ∧
    got (exec (.ldB 1) (regs [(1, 7)])) (fun t => t.mem ≠ State.reset.mem) = true ∧
    got (exec (.ldI 1) State.reset) (fun t => t.index ≠ State.reset.index) = true ∧
    got (exec (.ldVxK 1) State.reset) (fun t => t.execState ≠ State.reset.execState) = true ∧
    got (exec (.skp 1) (regs [(1, 0x10)])) (fun t => t.execState ≠ State.reset.execState) = true ∧
    got (exec (.ldImm 1 7) State.reset) (fun t => t.reg 1 ≠ State.reset.reg 1) = true := by decide

/-- OnlyTheNamedInstructionsWrite: Cxnn takes a draw. -/
theorem witness_rnd_takes_a_draw : ∃ t, exec (.rnd 1 0xFF) State.reset = .next t ∧ t.freeCount ≠ State.reset.freeCount :=
  ⟨_, rfl, by decide⟩

/-- CallPushesReturnAddress, ReturnPopsIntoPc, FullCallAndEmptyReturnOnlyAdvance: each bound of SP. -/
theorem witness_stack_bounds :
    ({ State.reset with sp := 15 } : State).sp.val < 16 ∧ 0 < ({ State.reset with sp := 1 } : State).sp.val ∧
    ({ State.reset with sp := 16 } : State).sp.val = 16 ∧ State.reset.sp.val = 0 := by decide

/-- ParkedStates: each clause; the last is vector C2. -/
theorem witness_parked :
    (∃ info, ({ State.reset with execState := .faulted ⟨.keyOutOfRange, 0x200, 0x10⟩ } : State).execState = .faulted info) ∧
    (∃ x, ({ State.reset with execState := .waitingForKey 5 } : State).execState = .waitingForKey x) ∧
    (State.reset.withFetchWord 16 0x1200).execState = .running ∧
    (State.reset.withFetchWord 16 0x1200).fetchBytes = .ok [0x12, 0x00] ∧
    decode [0x12, 0x00] = .instr (.jp 0x200) [] ∧
    (0x200 : BitVec 12).toNat = (State.reset.withFetchWord 16 0x1200).pc.toNat :=
  ⟨⟨_, rfl⟩, ⟨_, rfl⟩, by decide, by decide, by decide, by decide⟩

/-- ShiftsByOneSetFlagLast: both values of SHIFT_SOURCE. -/
theorem witness_shift_source :
    (1 : RegIdx) = (if State.reset.cfg.shiftSource = .vx then 1 else 2) ∧
    (2 : RegIdx) = (if (shiftingVy State.reset).cfg.shiftSource = .vx then 1 else 2) := by decide

/-- HostDrawReachesRnd. -/
theorem witness_rnd_fetched :
    (State.reset.withFetchWord 16 0xC10F).execState = .running ∧
    (State.reset.withFetchWord 16 0xC10F).fetchBytes = .ok [0xC1, 0x0F] ∧
    decode [0xC1, 0x0F] = .instr (.rnd 1 0x0F) [] := by decide

/-- BcdStoresDecimalDigits, StoreRegistersFromIndexUp, LoadRegistersFromIndexUp, StoreThenLoadRestoresRegisters: the highest
index under policy fault. -/
theorem witness_accessible :
    ({ State.reset with index := 0xFFD } : State).accessible 3 ∧
    ({ State.reset with index := 0xFF0 } : State).accessible ((0xF : RegIdx).val + 1) :=
  ⟨.inr (by decide), .inr (by decide)⟩

/-- The same under policy wrap, past the end of memory, with an address each byte reaches. -/
theorem witness_accessible_wrapped :
    (wrapped { State.reset with index := 0xFFE }).accessible 3 ∧
    (wrapped { State.reset with index := 0xFFE }).reaches 0 0xFFE ∧
    (wrapped { State.reset with index := 0xFFE }).reaches 1 0xFFF ∧
    (wrapped { State.reset with index := 0xFFE }).reaches 2 0x000 :=
  ⟨.inl rfl, rfl, rfl, rfl⟩

/-- DataOutsideMemoryIsTaken: the lowest index that raises, for each clause. -/
theorem witness_inaccessible :
    ({ State.reset with index := 0xFFE } : State).inaccessible 3 ∧
    ({ State.reset with index := 0xFF1 } : State).inaccessible ((0xF : RegIdx).val + 1) ∧
    ({ State.reset with index := 0xFF2 } : State).inaccessible 15 :=
  ⟨⟨rfl, by decide, by decide⟩, ⟨rfl, by decide, by decide⟩, ⟨rfl, by decide, by decide⟩⟩

/-- StoredWordIsFetchedNext: the highest pc. -/
theorem witness_store_before_fetch :
    ({ State.reset with pc := 0xFFC, index := 0xFFE } : State).pc.toNat + 3 < 4096 ∧
    ({ State.reset with pc := 0xFFC, index := 0xFFE } : State).index = (0xFFC : Word) + 2 := by decide

/-- A sprite of one pixel at I, and a framebuffer on which it collides. -/
def collidingState : State :=
  bytesAt 0x300 [0x80] { State.reset with index := 0x300, fb := Framebuffer.setPixel State.reset.fb 0 0 true }

/-- DrawXorsSpriteAndFlagsCollision, DrawingTwiceRestoresPixels: the largest sprite at the highest index, and a sprite that
collides. -/
theorem witness_draw :
    ({ State.reset with index := 0xFF1 } : State).accessible 15 ∧ collidingState.accessible 1 ∧
    collidingState.collides 0 1 1 ∧ (0 : RegIdx) ≠ vf ∧ (1 : RegIdx) ≠ vf :=
  ⟨.inr (by decide), .inr (by decide), ⟨0, 0, by decide, by decide, by decide, by decide⟩, by decide, by decide⟩

/-- DrawXorsSpriteAndFlagsCollision: a sprite of zeros does not collide. -/
theorem witness_draw_without_collision : ¬ ({ State.reset with index := 0xFF1 } : State).collides 0 1 1 := by
  rintro ⟨r, c, -, -, -, hp⟩
  have hc : ∀ p, State.reset.pixelAt p = false := fun p => pixel_clear p.1 p.2
  exact Bool.noConfusion ((hc _).symm.trans hp)

/-- FlagIsOneIffADrawErased. -/
theorem witness_draw_commits : ∃ t, exec (.drw 0 1 1) collidingState = .next t ∧ t.redraw = true := ⟨_, rfl, rfl⟩

/-- KeyTestsSkip: the largest key code, and under policy wrap the largest byte. -/
theorem witness_key_tests :
    (0xF : KeyCode).val = ((regs [(0, 0xF)]).reg 0).toNat % 16 ∧ ((regs [(0, 0xF)]).reg 0).toNat < 16 ∧
    (0xF : KeyCode).val = ((wrapped (regs [(0, 0xFF)])).reg 0).toNat % 16 ∧
    (wrapped (regs [(0, 0xFF)])).cfg.oorPolicy = .wrap := by decide

/-- KeyOutOfRangeIsTaken: the smallest value that names no key. -/
theorem witness_key_out_of_range :
    (regs [(0, 0x10)]).cfg.oorPolicy = .fault ∧ 0xF < ((regs [(0, 0x10)]).reg 0).toNat := by decide

/-- KeyDownSetsLatchAndEndsAWait: a state for each clause. -/
theorem witness_key_down :
    ({ State.reset with execState := .waitingForKey 0xF } : State).execState = .waitingForKey 0xF ∧
    ∀ x, State.reset.execState ≠ .waitingForKey x :=
  ⟨rfl, fun _ h => by cases h⟩

/-- OnlyKeyDownEndsAWait: an operation during a wait. -/
theorem witness_operation_in_a_wait :
    HostOp.tick ≠ .reset ∧ (∀ k, HostOp.tick ≠ .keyDown k) ∧
    gotOp (hostOp .tick { State.reset with execState := .waitingForKey 5 }) (fun t _ => t.execState = .waitingForKey 5)
      = true :=
  ⟨by decide, fun _ h => (by cases h), by decide⟩

/-- FaultedUntilReset: an operation of each clause. -/
theorem witness_operations_when_faulted :
    gotOp (hostOp .tick { State.reset with execState := .faulted ⟨.keyOutOfRange, 0x200, 0x10⟩ })
      (fun t _ => t.execState = .faulted ⟨.keyOutOfRange, 0x200, 0x10⟩) = true ∧
    gotOp (hostOp .reset { State.reset with execState := .faulted ⟨.keyOutOfRange, 0x200, 0x10⟩ })
      (fun t _ => t.execState = .running) = true := by decide

/-- LoadCopiesTheImageOrNothing: vectors F8 and F9, the largest image that fits and the smallest that does not. -/
theorem witness_image_sizes :
    0x200 + (List.replicate 3584 (0 : Byte)).length ≤ 4096 ∧ 4096 < 0x200 + (List.replicate 3585 (0 : Byte)).length := by
  rw [List.length_replicate, List.length_replicate]
  decide

/-- ResetLeavesTheListedValues. -/
theorem witness_reset_values : State.reset.cfg.resetValues = .zero := by decide

end Sys2Proof.Tests
end

section
/-! Control transfer (41_control_flow.md): 1nnn, 2nnn with room, and 00EE with an entry. -/

namespace Sys2Proof

/-! ## The opcode map's test on an encoded word -/

/-- The mask 0xF000 keeps the family of a format A word and drops its literal (30_encoding.md R82, R85). -/
theorem encA_and_familyMask (op : BitVec 4) (nnn : BitVec 12) : encA op nnn &&& 0xF000 = nibbles op 0 0 0 := by
  have hmask : (0xF000 : Word) = nibbles 0xF 0 0 0 := by decide
  have hop : op &&& 0xF = op := BitVec.and_allOnes
  rw [encA, hmask, and_nibbles, hop]
  simp only [BitVec.ofNat_eq_ofNat, BitVec.and_zero]

end Sys2Proof

namespace Sys2Proof.Machine

theorem encodedAs_jp (nnn : BitVec 12) : encodedAs (.jp nnn) 0x1000 0xF000 :=
  ⟨encA_and_familyMask 0x1 nnn, Laws.RoundTrip.jp nnn rfl⟩

theorem encodedAs_call (nnn : BitVec 12) : encodedAs (.call nnn) 0x2000 0xF000 :=
  ⟨encA_and_familyMask 0x2 nnn, Laws.RoundTrip.call nnn rfl⟩

theorem encodedAs_ret : encodedAs .ret 0x00EE 0xFFFF :=
  ⟨by decide, Laws.RoundTrip.ret rfl⟩

/-! ## What the meanings do -/

/-- A 12-bit literal is its own value as an address. -/
@[simp] theorem toNat_zextNNN (nnn : BitVec 12) : (zextNNN nnn).toNat = nnn.toNat :=
  BitVec.toNat_setWidth_of_le (by decide)

theorem exec_jp (nnn : BitVec 12) (s : State) : exec (.jp nnn) s = .next (s.advance.jump (zextNNN nnn)) := rfl

theorem exec_call (nnn : BitVec 12) (s : State) : exec (.call nnn) s = .next (s.advance.callTo (zextNNN nnn)) := rfl

theorem exec_ret (s : State) : exec .ret s = .next s.advance.popToPc := rfl

/-- A jump writes pc only. -/
theorem advance_jump_pcOnly (s : State) (w : Word) : PcOnly s (s.advance.jump w) :=
  ⟨rfl, sameMemory_of rfl rfl⟩

/-- 2nnn with room pushes pc after the advance and jumps (41_control_flow.md R124). -/
theorem exec_call_of_lt (nnn : BitVec 12) (s : State) (h : s.sp.val < 16) :
    exec (.call nnn) s = .next { s with
      stack := s.stack.set s.sp.val (s.pc + 2) h, sp := ⟨s.sp.val + 1, by omega⟩, pc := zextNNN nnn, redraw := false } := by
  rw [exec_call, callTo_of_lt s.advance (zextNNN nnn) h]
  rfl

/-- 00EE with an entry takes pc from the entry below SP (41_control_flow.md R121). -/
theorem exec_ret_of_pos (s : State) (h : 0 < s.sp.val) :
    exec .ret s = .next { s with
      sp := ⟨s.sp.val - 1, by omega⟩, pc := s.stack[s.sp.val - 1]'(by have := s.sp.isLt; omega), redraw := false } := by
  rw [exec_ret, popToPc_of_pos s.advance h]
  rfl

/-- What every entry of the stack reads as after a push. -/
theorem stack_get_set (stack : Vector Word 16) (n : Nat) (h : n < 16) (w : Word) (k : Fin 16) :
    (stack.set n w h).get k = if k.val = n then w else stack.get k := by
  simp only [Vector.get_eq_getElem, Vector.getElem_set, eq_comm]

/-! ## The obligations -/

/-- Settles O19: 1nnn is an advance and a jump to its literal. -/
theorem jumpSetsPc : Obligations.JumpSetsPc := fun s nnn =>
  ⟨encodedAs_jp nnn, _, exec_jp nnn s, advance_jump_pcOnly s _, toNat_zextNNN nnn⟩

/-- Settles O21: with room, 2nnn is the push at SP of the address after it, and a jump. -/
theorem callPushesReturnAddress : Obligations.CallPushesReturnAddress := fun s nnn h =>
  ⟨encodedAs_call nnn, _, exec_call_of_lt nnn s h, rfl, sameMemory_of rfl rfl, toNat_zextNNN nnn, rfl,
    stack_get_set s.stack s.sp.val h (s.pc + 2)⟩

/-- Settles O22: with an entry, 00EE takes pc from the entry at the new SP. -/
theorem returnPopsIntoPc : Obligations.ReturnPopsIntoPc := by
  intro s h
  refine ⟨encodedAs_ret, _, exec_ret_of_pos s h, rfl, sameMemory_of rfl rfl, Nat.sub_add_cancel h, fun k hk => ?_⟩
  simp only [Vector.get_eq_getElem, hk]

end Sys2Proof.Machine
end

section
/-! Register load (42_register_alu.md): 6xnn. -/

namespace Sys2Proof

/-- The mask 0xF000 keeps a word's family nibble and drops the other three (30_encoding.md R82, R85). -/
theorem nibbles_and_familyMask (a b c d : BitVec 4) : nibbles a b c d &&& 0xF000 = nibbles a 0 0 0 := by
  have hmask : (0xF000 : Word) = nibbles 0xF 0 0 0 := by decide
  have hfamily : a &&& 0xF = a := BitVec.and_allOnes
  rw [hmask, and_nibbles, hfamily]
  simp only [BitVec.ofNat_eq_ofNat, BitVec.and_zero]

theorem encX_and_familyMask (op : BitVec 4) (x : RegIdx) (nn : Byte) : encX op x nn &&& 0xF000 = nibbles op 0 0 0 :=
  nibbles_and_familyMask ..

end Sys2Proof

namespace Sys2Proof.Machine

theorem encodedAs_ldImm (x : RegIdx) (nn : Byte) : encodedAs (.ldImm x nn) 0x6000 0xF000 :=
  ⟨encX_and_familyMask 0x6 x nn, Laws.RoundTrip.ldImm x nn rfl⟩

theorem exec_ldImm (x : RegIdx) (nn : Byte) (s : State) : exec (.ldImm x nn) s = .next (s.advance.setReg x nn) := rfl

/-- The frame of every instruction that is an advance and one register write. -/
theorem advance_setReg_registersOnly (s : State) (x : RegIdx) (b : Byte) : RegistersOnly s (s.advance.setReg x b) :=
  ⟨rfl, sameMemory_of rfl rfl⟩

/-- Settles O27: 6xnn is an advance and the write of nn to Vx. -/
theorem loadImmediate : Obligations.LoadImmediate := fun s x nn =>
  ⟨encodedAs_ldImm x nn, _, exec_ldImm x nn s, advance_setReg_registersOnly s x nn, fun z => reg_setReg s.advance x z nn⟩

end Sys2Proof.Machine
end

section
/-! Index register loads (43_index_memory.md): Annn and Fx29. -/

namespace Sys2Proof

/-- The mask 0xF0FF keeps the family and the function byte of a format XF word and drops its register index
(30_encoding.md R82, R85). -/
theorem encX_and_functionMask (op : BitVec 4) (x : RegIdx) (nn : Byte) : encX op x nn &&& 0xF0FF = encX op 0 nn := by
  have hmask : (0xF0FF : Word) = nibbles 0xF 0 0xF 0xF := by decide
  have hkeep (b : BitVec 4) : b &&& 0xF = b := BitVec.and_allOnes
  have hdrop : nib x &&& 0 = nib 0 := BitVec.and_zero
  rw [encX, hmask, and_nibbles, hkeep, hkeep, hkeep, hdrop, encX]

end Sys2Proof

namespace Sys2Proof.Machine

theorem encodedAs_ldI (nnn : BitVec 12) : encodedAs (.ldI nnn) 0xA000 0xF000 :=
  ⟨encA_and_familyMask 0xA nnn, Laws.RoundTrip.ldI nnn rfl⟩

theorem encodedAs_ldF (x : RegIdx) : encodedAs (.ldF x) 0xF029 0xF0FF :=
  ⟨encX_and_functionMask 0xF x 0x29, Laws.RoundTrip.ldF x rfl⟩

theorem exec_ldI (nnn : BitVec 12) (s : State) : exec (.ldI nnn) s = .next { s.advance with index := zextNNN nnn } := rfl

theorem exec_ldF (x : RegIdx) (s : State) : exec (.ldF x) s = .next { s.advance with index := glyphAddr (s.reg x) } := rfl

@[simp] theorem toNat_zextByte (b : Byte) : (zextByte b).toNat = b.toNat :=
  BitVec.toNat_setWidth_of_le (by decide)

/-- The address of a glyph is at most 0x9B, so neither the product nor the sum wraps (43_index_memory.md R172). -/
theorem toNat_glyphAddr (b : Byte) : (glyphAddr b).toNat = 0x50 + b.toNat % 16 * 5 := by
  have hlow : (b &&& 0x0F).toNat = b.toNat % 16 := Nat.and_two_pow_sub_one_eq_mod b.toNat 4
  rw [glyphAddr, BitVec.toNat_add, BitVec.toNat_mul, toNat_zextByte, hlow]
  simp only [BitVec.ofNat_eq_ofNat, BitVec.toNat_ofNat]
  omega

/-- The frame of every instruction that is an advance and a write of I. -/
theorem advance_index_frame (s : State) (w : Word) :
    { s.advance with index := w } = { s with index := w, pc := s.pc + 2, redraw := false } ∧
      SameMemory s { s.advance with index := w } :=
  ⟨rfl, sameMemory_of rfl rfl⟩

/-- Settles O34: both are an advance and a write of I, of the literal and of the glyph's address. -/
theorem indexLoads : Obligations.IndexLoads := fun s nnn x =>
  have ⟨hframeI, hmemI⟩ := advance_index_frame s (zextNNN nnn)
  have ⟨hframeF, hmemF⟩ := advance_index_frame s (glyphAddr (s.reg x))
  ⟨encodedAs_ldI nnn, encodedAs_ldF x,
    ⟨_, exec_ldI nnn s, hframeI, hmemI, toNat_zextNNN nnn⟩,
    ⟨_, exec_ldF x s, hframeF, hmemF, toNat_glyphAddr (s.reg x)⟩⟩

end Sys2Proof.Machine
end

section
/-! Display clear (44_display.md): 00E0. -/

namespace Sys2Proof.Machine

theorem encodedAs_cls : encodedAs .cls 0x00E0 0xFFFF :=
  ⟨by decide, Laws.RoundTrip.cls rfl⟩

theorem exec_cls (s : State) : exec .cls s = .next { s.advance with fb := Framebuffer.clear, redraw := true } := rfl

/-- Settles O42: 00E0 is an advance, the clear framebuffer and the redraw signal (44_display.md R190). -/
theorem clearZeroesEveryPixel : Obligations.ClearZeroesEveryPixel := fun s =>
  ⟨encodedAs_cls, _, exec_cls s, rfl, sameMemory_of rfl rfl, fun p => pixel_clear p.1 p.2⟩

end Sys2Proof.Machine
end

section
/-! Timers and the key wait (45_timers_input.md): Fx07, Fx15, Fx18, Fx0A. -/

namespace Sys2Proof.Machine

theorem encodedAs_ldVxDt (x : RegIdx) : encodedAs (.ldVxDt x) 0xF007 0xF0FF :=
  ⟨encX_and_functionMask 0xF x 0x07, Laws.RoundTrip.ldVxDt x rfl⟩

theorem encodedAs_ldDtVx (x : RegIdx) : encodedAs (.ldDtVx x) 0xF015 0xF0FF :=
  ⟨encX_and_functionMask 0xF x 0x15, Laws.RoundTrip.ldDtVx x rfl⟩

theorem encodedAs_ldStVx (x : RegIdx) : encodedAs (.ldStVx x) 0xF018 0xF0FF :=
  ⟨encX_and_functionMask 0xF x 0x18, Laws.RoundTrip.ldStVx x rfl⟩

theorem encodedAs_ldVxK (x : RegIdx) : encodedAs (.ldVxK x) 0xF00A 0xF0FF :=
  ⟨encX_and_functionMask 0xF x 0x0A, Laws.RoundTrip.ldVxK x rfl⟩

theorem exec_ldVxDt (x : RegIdx) (s : State) : exec (.ldVxDt x) s = .next (s.advance.setReg x s.dt) := rfl

theorem exec_ldDtVx (x : RegIdx) (s : State) : exec (.ldDtVx x) s = .next { s.advance with dt := s.reg x } := rfl

theorem exec_ldStVx (x : RegIdx) (s : State) : exec (.ldStVx x) s = .next { s.advance with st := s.reg x } := rfl

theorem exec_ldVxK (x : RegIdx) (s : State) :
    exec (.ldVxK x) s = .next { s.advance with execState := .waitingForKey x } := rfl

/-- Settles O48: Fx07 is an advance and the write of DT to Vx; Fx15 and Fx18 are an advance and the write of Vx to the
timer (45_timers_input.md R213, R214). -/
theorem timerReadAndWrites : Obligations.TimerReadAndWrites := fun s x =>
  ⟨encodedAs_ldVxDt x, encodedAs_ldDtVx x, encodedAs_ldStVx x,
    ⟨_, exec_ldVxDt x s, advance_setReg_registersOnly s x s.dt, fun z => reg_setReg s.advance x z s.dt⟩,
    ⟨_, exec_ldDtVx x s, rfl, sameMemory_of rfl rfl⟩,
    ⟨_, exec_ldStVx x s, rfl, sameMemory_of rfl rfl⟩⟩

/-- Settles O49: Fx0A is an advance and the entry into the wait (45_timers_input.md R216). -/
theorem waitForKeyEntersTheWait : Obligations.WaitForKeyEntersTheWait := fun s x =>
  ⟨encodedAs_ldVxK x, _, exec_ldVxK x s, sameMemory_of rfl rfl, rfl⟩

end Sys2Proof.Machine
end

section
/-! Host operations (60_exceptions.md): key_up. -/

namespace Sys2Proof.Machine

theorem hostOp_keyUp (s : State) (k : KeyCode) : hostOp (.keyUp k) s = .next (s.keyUp k, .none) := rfl

theorem pressed_keyUp (s : State) (k j : KeyCode) :
    (s.keyUp k).pressed j = if j = k then false else s.pressed j := by
  simp only [State.pressed, State.keyUp, Vector.get_eq_getElem, Vector.getElem_set, Fin.ext_iff, eq_comm]

/-- Settles O53: a key-up writes its own latch and no other field, the execution state included (60_exceptions.md R246). -/
theorem keyUpClearsTheLatchOnly : Obligations.KeyUpClearsTheLatchOnly := fun s k =>
  ⟨_, hostOp_keyUp s k, rfl, sameMemory_of rfl rfl, pressed_keyUp s k⟩

end Sys2Proof.Machine
end

section
/-! Encoding and decoding (30_encoding.md R80 to R88): the two round trips, the opcode map, the unrecognized words. -/

namespace Sys2Proof

/-! ## Decoding inverts encoding -/

/-- The round trip on words, one constructor after the other. -/
theorem decodeWord_encodeWord (i : Instr) (h : i.wellFormed = true) : decodeWord (encodeWord i) = some i := by
  cases i with
  | cls => exact Laws.RoundTrip.cls h
  | ret => exact Laws.RoundTrip.ret h
  | jp nnn => exact Laws.RoundTrip.jp nnn h
  | call nnn => exact Laws.RoundTrip.call nnn h
  | seImm x nn => exact Laws.RoundTrip.seImm x nn h
  | sneImm x nn => exact Laws.RoundTrip.sneImm x nn h
  | seReg x y => exact Laws.RoundTrip.seReg x y h
  | sneReg x y => exact Laws.RoundTrip.sneReg x y h
  | ldImm x nn => exact Laws.RoundTrip.ldImm x nn h
  | addImm x nn => exact Laws.RoundTrip.addImm x nn h
  | ldReg x y => exact Laws.RoundTrip.ldReg x y h
  | orReg x y => exact Laws.RoundTrip.orReg x y h
  | andReg x y => exact Laws.RoundTrip.andReg x y h
  | xorReg x y => exact Laws.RoundTrip.xorReg x y h
  | addReg x y => exact Laws.RoundTrip.addReg x y h
  | subReg x y => exact Laws.RoundTrip.subReg x y h
  | shr x y => exact Laws.RoundTrip.shr x y h
  | subn x y => exact Laws.RoundTrip.subn x y h
  | shl x y => exact Laws.RoundTrip.shl x y h
  | ldI nnn => exact Laws.RoundTrip.ldI nnn h
  | jpV0 nnn => exact Laws.RoundTrip.jpV0 nnn h
  | rnd x nn => exact Laws.RoundTrip.rnd x nn h
  | drw x y n => exact Laws.RoundTrip.drw x y n h
  | skp x => exact Laws.RoundTrip.skp x h
  | sknp x => exact Laws.RoundTrip.sknp x h
  | ldVxDt x => exact Laws.RoundTrip.ldVxDt x h
  | ldDtVx x => exact Laws.RoundTrip.ldDtVx x h
  | ldStVx x => exact Laws.RoundTrip.ldStVx x h
  | ldVxK x => exact Laws.RoundTrip.ldVxK x h
  | addI x => exact Laws.RoundTrip.addI x h
  | ldF x => exact Laws.RoundTrip.ldF x h
  | ldB x => exact Laws.RoundTrip.ldB x h
  | stRegs x => exact Laws.RoundTrip.stRegs x h
  | ldRegs x => exact Laws.RoundTrip.ldRegs x h

/-- Settles O1: an encoding is its word's two bytes, and the word decodes to the instruction. -/
theorem decodeOfEncodeIsIdentity : Obligations.DecodeOfEncodeIsIdentity := by
  intro i rest h
  rw [encode, decode_bytesOfWord, decodeWord_encodeWord i h]

/-! ## Encoding inverts decoding -/

theorem encA_of_fieldOp {w : Word} {op : BitVec 4} (h : (fieldOp w).toNat = op.toNat) : encA op (fieldNNN w) = w := by
  rw [← BitVec.eq_of_toNat_eq h, ← eq_encA]

theorem encX_of_fieldOp {w : Word} {op : BitVec 4} (h : (fieldOp w).toNat = op.toNat) :
    encX op (fieldX w) (fieldNN w) = w := by
  rw [← BitVec.eq_of_toNat_eq h, ← eq_encX]

theorem encXY_of_fieldOp {w : Word} {op : BitVec 4} (h : (fieldOp w).toNat = op.toNat) :
    encXY op (fieldX w) (fieldY w) (BitVec.ofNat 4 (fieldN w)) = w := by
  rw [← BitVec.eq_of_toNat_eq h, ← eq_encXY]

/-- `i` is well-formed and `w` is its word. -/
def EncodesTo (i : Instr) (w : Word) : Prop := i.wellFormed = true ∧ encodeWord i = w

theorem encodesTo_of_decodeAlu {x y : RegIdx} {n : Nat} {i : Instr} (h : decodeAlu x y n = some i) :
    EncodesTo i (encXY 0x8 x y (BitVec.ofNat 4 n)) := by
  unfold decodeAlu at h
  split at h <;> cases h <;> exact ⟨rfl, rfl⟩

theorem encodesTo_of_decodeKeyTest {x : RegIdx} {nn : Byte} {i : Instr} (h : decodeKeyTest x nn = some i) :
    EncodesTo i (encX 0xE x nn) := by
  unfold decodeKeyTest at h
  split_ifs at h with hnn hnn <;> cases h <;> exact hnn ▸ ⟨rfl, rfl⟩

theorem encodesTo_of_decodeMisc {x : RegIdx} {nn : Byte} {i : Instr} (h : decodeMisc x nn = some i) :
    EncodesTo i (encX 0xF x nn) := by
  unfold decodeMisc at h
  split_ifs at h with hnn hnn hnn hnn hnn hnn hnn hnn hnn <;> cases h <;> exact hnn ▸ ⟨rfl, rfl⟩

theorem fieldN_lt (w : Word) : fieldN w < 16 := (w.extractLsb' 0 4).isLt

/-- Family by family, a word's own fields give it back. -/
theorem encodesTo_of_decodeWord {w : Word} {i : Instr} (h : decodeWord w = some i) : EncodesTo i w := by
  unfold decodeWord decodeFields at h
  split at h
  next hop =>
    have hw := encA_of_fieldOp (op := 0) hop
    split_ifs at h with hcls hret <;> cases h
    · rw [hcls] at hw; exact ⟨rfl, hw⟩
    · rw [hret] at hw; exact ⟨rfl, hw⟩
  next hop => cases h; exact ⟨rfl, encA_of_fieldOp hop⟩
  next hop => cases h; exact ⟨rfl, encA_of_fieldOp hop⟩
  next hop => cases h; exact ⟨rfl, encX_of_fieldOp hop⟩
  next hop => cases h; exact ⟨rfl, encX_of_fieldOp hop⟩
  next hop =>
    have hw := encXY_of_fieldOp (op := 5) hop
    split_ifs at h with hn
    cases h
    rw [hn] at hw
    exact ⟨rfl, hw⟩
  next hop => cases h; exact ⟨rfl, encX_of_fieldOp hop⟩
  next hop => cases h; exact ⟨rfl, encX_of_fieldOp hop⟩
  next hop => exact encXY_of_fieldOp (op := 8) hop ▸ encodesTo_of_decodeAlu h
  next hop =>
    have hw := encXY_of_fieldOp (op := 9) hop
    split_ifs at h with hn
    cases h
    rw [hn] at hw
    exact ⟨rfl, hw⟩
  next hop => cases h; exact ⟨rfl, encA_of_fieldOp hop⟩
  next hop => cases h; exact ⟨rfl, encA_of_fieldOp hop⟩
  next hop => cases h; exact ⟨rfl, encX_of_fieldOp hop⟩
  next hop => cases h; exact ⟨decide_eq_true (Nat.le_of_lt_succ (fieldN_lt w)), encXY_of_fieldOp hop⟩
  next hop => exact encX_of_fieldOp (op := 0xE) hop ▸ encodesTo_of_decodeKeyTest h
  next hop => exact encX_of_fieldOp (op := 0xF) hop ▸ encodesTo_of_decodeMisc h
  next => cases h

/-- Bytes that decode are those of a word that decodes. -/
theorem decode_eq_instr {bytes rest : List Byte} {i : Instr} (h : decode bytes = .instr i rest) :
    ∃ w, decodeWord w = some i ∧ bytes = bytesOfWord w ++ rest := by
  unfold decode at h
  split at h
  next hi lo _ =>
    split at h
    next hw =>
      cases h
      exact ⟨_, hw, by rw [bytesOfWord_wordOfBytes]; rfl⟩
    next => cases h
  next => cases h
  next => cases h

/-- Settles O2: the bytes are a word's, and the word is the encoding of what it decodes to. -/
theorem decodedBytesAreTheEncoding : Obligations.DecodedBytesAreTheEncoding := by
  intro bytes rest i h
  obtain ⟨w, hw, rfl⟩ := decode_eq_instr h
  obtain ⟨hwf, rfl⟩ := encodesTo_of_decodeWord hw
  exact ⟨hwf, rfl⟩

end Sys2Proof
end

section
/-! Invariants (10_state.md R26, R32; 20_memory.md section 1; 60_exceptions.md section 1): canonical memory with a true
fault record, and the bounds on pc and the return addresses. -/

namespace Sys2Proof.Machine

/-! ## Canonical memory and a true fault record -/

/-- A state that is not Faulted has no record to be true of. -/
theorem faultRecordSound_of_safe {s : State} (h : Safe s) : FaultRecordSound s :=
  fun info hf => absurd hf (h info)

theorem safe_of_running {s : State} (h : s.execState = .running) : Safe s := fun info hf => by
  rw [h] at hf; cases hf

/-- The invariant reads memory, the configuration, the execution state and pc. -/
theorem inv_congr {s t : State} (hm : t.mem = s.mem) (hc : t.cfg = s.cfg) (he : t.execState = s.execState)
    (hp : t.pc = s.pc) (h : Inv s) : Inv t := by
  unfold Inv MemoryCanonical FaultRecordSound at *
  rwa [hm, hc, he, hp]

/-- The exception of a fetch leaves a true record. -/
theorem inv_of_fetch_error {s : State} {e : OutOfRange} (hm : MemoryCanonical s) (h : s.fetchBytes = .error e) :
    Inv (s.takeOutOfRange e) := by
  obtain ⟨hp, hreason, hv, hpc⟩ := fetchBytes_error h
  refine ⟨hm, fun info hf => ?_⟩
  cases hf
  exact ⟨hp, rfl, by simpa only [hreason] using ⟨hv, hpc⟩⟩

/-- The exception of an instruction leaves a true record. -/
theorem inv_of_raisedBy {s : State} {e : OutOfRange} (hm : MemoryCanonical s) (h : RaisedBy s e) :
    Inv (s.takeOutOfRange e) := by
  obtain ⟨hp, hraised⟩ := h
  refine ⟨hm, fun info hf => ?_⟩
  cases hf
  refine ⟨hp, rfl, ?_⟩
  rcases hraised with ⟨hreason, hv⟩ | ⟨hreason, hv⟩
  · simpa only [hreason] using hv
  · simpa only [hreason] using hv

/-- An instruction that a running core executes keeps the invariant, whether it commits or raises. -/
theorem inv_exec {i : Instr} {s t : State} (hr : s.execState = .running) (hm : MemoryCanonical s)
    (h : exec i s = .next t) : Inv t := by
  rcases exec_cases h with ⟨e, he, rfl⟩ | hc
  · exact inv_of_raisedBy hm he
  · exact ⟨hc.wf hm, faultRecordSound_of_safe fun info hf => safe_of_running hr info (hc.noFault info hf)⟩

theorem inv_step {s t : State} (hi : Inv s) (h : step s = .next t) : Inv t := by
  rcases step_cases s with ⟨-, hs⟩ | ⟨-, e, hf, hs⟩ | ⟨hr, bytes, why, -, -, hs⟩ | ⟨hr, bytes, i, rest, -, -, hs⟩
  · rw [hs] at h
    cases h
    exact inv_congr rfl rfl rfl rfl hi
  · rw [hs] at h
    cases h
    exact inv_of_fetch_error hi.1 hf
  · rw [hs] at h
    cases h
    exact ⟨hi.1, faultRecordSound_of_safe (safe_of_running hr)⟩
  · exact inv_exec hr hi.1 (hs ▸ h)

/-- Settles O13, over the four things a step can do. -/
theorem stepKeepsMemoryCanonicalAndRecordTrue : Obligations.StepKeepsMemoryCanonicalAndRecordTrue :=
  fun _ _ => inv_step

/-! ## Host operations -/

theorem inv_hostReset (s : State) : Inv s.hostReset := by
  obtain ⟨-, hr, hc, hm⟩ := hostReset_always s
  refine ⟨?_, faultRecordSound_of_safe (safe_of_running hr)⟩
  rw [MemoryCanonical, hc]
  rcases hm with hm | ⟨d, hm⟩ <;> rw [hm]
  · exact ⟨.nil, fun _ h => absurd h List.not_mem_nil⟩
  · exact wf_drawnMemory _ d

theorem inv_loadImage {s : State} {image : List Byte} (h : programBase + image.length ≤ memSize) (hi : Inv s) :
    Inv (s.loadImage image programBase) := by
  obtain ⟨hframe, hwf, -⟩ := loadImage_spec s image programBase h
  refine ⟨hwf hi.1, ?_⟩
  rw [hframe]
  exact hi.2

theorem inv_hostLoad {s : State} (image : List Byte) (hi : Inv s) : Inv (s.hostLoad image).1 := by
  unfold State.hostLoad
  split
  · exact inv_loadImage ‹_› hi
  · exact hi

theorem inv_hostStep {s t : State} {r : Byte} {res : HostResult} (hi : Inv s) (h : s.hostStep r = .next (t, res)) :
    Inv t := by
  obtain ⟨u, hu, rfl, -⟩ := hostStep_next h
  have hd : Inv { s with draw := some r } := inv_congr rfl rfl rfl rfl hi
  have hi' : Inv u := inv_step hd hu
  exact inv_congr rfl rfl rfl rfl hi'

theorem inv_keyDown {s : State} (k : KeyCode) (hi : Inv s) : Inv (s.keyDown k) := by
  by_cases hw : ∃ x, s.execState = .waitingForKey x
  · obtain ⟨x, hx⟩ := hw
    rw [keyDown_waiting hx]
    exact ⟨hi.1, faultRecordSound_of_safe (safe_of_running rfl)⟩
  · rw [keyDown_other fun x hx => hw ⟨x, hx⟩]
    exact inv_congr rfl rfl rfl rfl hi

/-- Settles O14, operation by operation. -/
theorem hostOperationsKeepTheInvariant : Obligations.HostOperationsKeepTheInvariant := by
  intro op s t r hi h
  cases op with
  | reset => cases h; exact inv_hostReset s
  | load image =>
    have ht : s.hostLoad image = (t, r) := Host.Outcome.next.inj h
    have hl := inv_hostLoad image hi
    rwa [ht] at hl
  | step b => exact inv_hostStep hi h
  | tick => cases h; exact inv_congr rfl rfl rfl rfl hi
  | keyDown k => cases h; exact inv_keyDown k hi
  | keyUp k => cases h; exact inv_congr rfl rfl rfl rfl hi
  | readFb => cases h; exact hi
  | readStatus => cases h; exact hi

/-! ## Bounds on pc and the return addresses -/

/-- The bounds read pc and the stack. -/
theorem controlBounded_congr {s t : State} (hp : t.pc = s.pc) (hs : t.stack = s.stack) (h : ControlBounded s) :
    ControlBounded t := by
  unfold ControlBounded at *
  rwa [hp, hs]

/-- Under policy fault an instruction is fetched inside memory. -/
theorem pc_le_of_fetchBytes {s : State} {bytes : List Byte} (hp : s.cfg.oorPolicy = .fault)
    (hf : s.fetchBytes = .ok bytes) : s.pc.toNat ≤ 0xFFE := by
  by_contra hlt
  rw [State.fetchBytes, readBytes_fault s _ 2 _ hp (by decide) (by simp only [memSize]; omega)] at hf
  cases hf

/-- Where pc goes while the stack stays: nowhere, past one or two words, or to one of the two jumps' targets. -/
inductive PcMove (s : State) : Word → Prop where
  | stay : PcMove s s.pc
  | next : PcMove s (s.pc + 2)
  | skip : PcMove s (s.pc + 4)
  | jump (nnn : BitVec 12) : PcMove s (zextNNN nnn)
  | jumpV0 (nnn : BitVec 12) : PcMove s (zextNNN nnn + zextByte (s.reg 0))

theorem pcMove_skipIf (s : State) (c : Bool) : PcMove s (s.advance.skipIf c).pc := by
  rw [pc_advance_skipIf]
  cases c
  · exact .next
  · exact .skip

/-- What an instruction other than 2nnn and 00EE does to pc and the stack. -/
theorem exec_pcMove {i : Instr} {s t : State} (hcall : ∀ nnn, i ≠ .call nnn) (hret : i ≠ .ret) (h : exec i s = .next t) :
    PcMove s t.pc ∧ t.stack = s.stack := by
  cases i with
  | call nnn => exact absurd rfl (hcall nnn)
  | ret => exact absurd rfl hret
  | jp nnn => cases h; exact ⟨.jump nnn, rfl⟩
  | jpV0 nnn => cases h; exact ⟨.jumpV0 nnn, rfl⟩
  | seImm | sneImm | seReg | sneReg => cases h; exact ⟨pcMove_skipIf s _, skipIf_stack ..⟩
  | skp | sknp =>
    rcases commit_key_cases h with ⟨e, -, rfl⟩ | ⟨k, rfl⟩
    · exact ⟨.stay, rfl⟩
    · exact ⟨pcMove_skipIf s _, skipIf_stack ..⟩
  | ldB | stRegs =>
    rcases commit_write_cases h with ⟨e, -, rfl⟩ | hw
    · exact ⟨.stay, rfl⟩
    · rw [(writeBytes_frame hw).1]
      exact ⟨.next, rfl⟩
  | drw | ldRegs =>
    rcases commit_read_cases h with ⟨e, -, rfl⟩ | ⟨bs, rfl⟩
    · exact ⟨.stay, rfl⟩
    · exact ⟨.next, rfl⟩
  | _ => cases h; exact ⟨.next, rfl⟩

/-- No move from a fetchable pc leaves the bound: the farthest is Bnnn's, to 0xFFF + 0xFF. -/
theorem pcMove_le {s : State} {pc : Word} (h : PcMove s pc) (hpc : s.pc.toNat ≤ 0xFFE) : pc.toNat ≤ 0x10FE := by
  cases h with
  | stay => omega
  | next => simp only [BitVec.toNat_add, BitVec.reduceToNat]; omega
  | skip => simp only [BitVec.toNat_add, BitVec.reduceToNat]; omega
  | jump nnn =>
    have := nnn.isLt
    rw [toNat_zextNNN]
    omega
  | jumpV0 nnn =>
    have := nnn.isLt
    have := (s.reg 0).isLt
    rw [BitVec.toNat_add, toNat_zextNNN, toNat_zextByte]
    omega

/-- A call pushes an address of at most 0x1000, or does nothing but advance. -/
theorem controlBounded_call {s : State} (nnn : BitVec 12) (hpc : s.pc.toNat ≤ 0xFFE) (hb : ControlBounded s) :
    ControlBounded (s.advance.callTo (zextNNN nnn)) := by
  have hnext : (s.pc + 2).toNat ≤ 0x1000 := by
    simp only [BitVec.toNat_add, BitVec.reduceToNat]
    omega
  by_cases hsp : s.sp.val < 16
  · rw [callTo_of_lt s.advance _ hsp]
    refine ⟨pcMove_le (.jump nnn) hpc, fun k => ?_⟩
    show ((s.stack.set s.sp.val (s.pc + 2) hsp).get k).toNat ≤ 0x1000
    rw [stack_get_set]
    split
    · exact hnext
    · exact hb.2 k
  · rw [callTo_of_full s.advance _ hsp]
    exact ⟨Nat.le_trans hnext (by decide), hb.2⟩

/-- A return takes pc from an entry, or does nothing but advance. -/
theorem controlBounded_ret {s : State} (hpc : s.pc.toNat ≤ 0xFFE) (hb : ControlBounded s) :
    ControlBounded s.advance.popToPc := by
  by_cases hsp : 0 < s.sp.val
  · rw [popToPc_of_pos s.advance hsp]
    have hk : s.sp.val - 1 < 16 := by omega
    exact ⟨Nat.le_trans (hb.2 ⟨s.sp.val - 1, hk⟩) (by decide), hb.2⟩
  · rw [popToPc_of_empty s.advance hsp]
    exact ⟨pcMove_le .next hpc, hb.2⟩

theorem controlBounded_exec {i : Instr} {s t : State} (hpc : s.pc.toNat ≤ 0xFFE) (hb : ControlBounded s)
    (h : exec i s = .next t) : ControlBounded t := by
  by_cases hcall : ∃ nnn, i = .call nnn
  · obtain ⟨nnn, rfl⟩ := hcall
    cases h
    exact controlBounded_call nnn hpc hb
  · by_cases hret : i = .ret
    · subst hret
      cases h
      exact controlBounded_ret hpc hb
    · obtain ⟨hmove, hstack⟩ := exec_pcMove (fun nnn hi => hcall ⟨nnn, hi⟩) hret h
      exact ⟨pcMove_le hmove hpc, hstack ▸ hb.2⟩

/-- Settles O15: a step that runs an instruction under policy fault has fetched it at 0xFFE or below. -/
theorem stepKeepsPcBounded : Obligations.StepKeepsPcBounded := by
  intro s t hp hb h
  rcases step_cases s with ⟨-, hs⟩ | ⟨-, e, -, hs⟩ | ⟨-, bytes, why, hf, -, hs⟩ | ⟨-, bytes, i, rest, hf, -, hs⟩
  · rw [hs] at h
    cases h
    exact controlBounded_congr rfl rfl hb
  · rw [hs] at h
    cases h
    exact controlBounded_congr rfl rfl hb
  · rw [hs] at h
    cases h
    exact ⟨pcMove_le .next (pc_le_of_fetchBytes hp hf), hb.2⟩
  · exact controlBounded_exec (pc_le_of_fetchBytes hp hf) hb (hs ▸ h)

/-- Settles O12: an empty memory, a running core, pc = 0x200 and a stack of zeros. -/
theorem resetMeetsTheInvariants : Obligations.ResetMeetsTheInvariants := by
  refine ⟨⟨⟨.nil, fun _ h => absurd h List.not_mem_nil⟩, faultRecordSound_of_safe (safe_of_running rfl)⟩, by decide,
    fun k => ?_⟩
  simp [State.reset, Vector.get_eq_getElem]

end Sys2Proof.Machine
end

section
/-! The opcode map (30_encoding.md R85 to R88): masks and words of each instruction, the rows a word selects, and the
unrecognized words. -/

namespace Sys2Proof

/-! ## The masks of the map on an encoded word -/

/-- The mask 0xF00F keeps the family and the function code of a format XY word and drops its registers. -/
theorem encXY_and_functionMask (op : BitVec 4) (x y : RegIdx) (n : BitVec 4) :
    encXY op x y n &&& 0xF00F = nibbles op 0 0 n := by
  have hmask : (0xF00F : Word) = nibbles 0xF 0 0 0xF := by decide
  have hkeep (b : BitVec 4) : b &&& 0xF = b := BitVec.and_allOnes
  rw [encXY, hmask, and_nibbles, hkeep, hkeep]
  simp only [BitVec.ofNat_eq_ofNat, BitVec.and_zero]

theorem encXY_and_familyMask (op : BitVec 4) (x y : RegIdx) (n : BitVec 4) :
    encXY op x y n &&& 0xF000 = nibbles op 0 0 0 :=
  nibbles_and_familyMask ..

end Sys2Proof

namespace Sys2Proof.Machine

theorem encodedAs_seImm (x : RegIdx) (nn : Byte) : encodedAs (.seImm x nn) 0x3000 0xF000 :=
  ⟨encX_and_familyMask 0x3 x nn, Laws.RoundTrip.seImm x nn rfl⟩

theorem encodedAs_sneImm (x : RegIdx) (nn : Byte) : encodedAs (.sneImm x nn) 0x4000 0xF000 :=
  ⟨encX_and_familyMask 0x4 x nn, Laws.RoundTrip.sneImm x nn rfl⟩

theorem encodedAs_seReg (x y : RegIdx) : encodedAs (.seReg x y) 0x5000 0xF00F :=
  ⟨encXY_and_functionMask 0x5 x y 0, Laws.RoundTrip.seReg x y rfl⟩

theorem encodedAs_sneReg (x y : RegIdx) : encodedAs (.sneReg x y) 0x9000 0xF00F :=
  ⟨encXY_and_functionMask 0x9 x y 0, Laws.RoundTrip.sneReg x y rfl⟩

theorem encodedAs_addImm (x : RegIdx) (nn : Byte) : encodedAs (.addImm x nn) 0x7000 0xF000 :=
  ⟨encX_and_familyMask 0x7 x nn, Laws.RoundTrip.addImm x nn rfl⟩

theorem encodedAs_ldReg (x y : RegIdx) : encodedAs (.ldReg x y) 0x8000 0xF00F :=
  ⟨encXY_and_functionMask 0x8 x y 0, Laws.RoundTrip.ldReg x y rfl⟩

theorem encodedAs_orReg (x y : RegIdx) : encodedAs (.orReg x y) 0x8001 0xF00F :=
  ⟨encXY_and_functionMask 0x8 x y 1, Laws.RoundTrip.orReg x y rfl⟩

theorem encodedAs_andReg (x y : RegIdx) : encodedAs (.andReg x y) 0x8002 0xF00F :=
  ⟨encXY_and_functionMask 0x8 x y 2, Laws.RoundTrip.andReg x y rfl⟩

theorem encodedAs_xorReg (x y : RegIdx) : encodedAs (.xorReg x y) 0x8003 0xF00F :=
  ⟨encXY_and_functionMask 0x8 x y 3, Laws.RoundTrip.xorReg x y rfl⟩

theorem encodedAs_addReg (x y : RegIdx) : encodedAs (.addReg x y) 0x8004 0xF00F :=
  ⟨encXY_and_functionMask 0x8 x y 4, Laws.RoundTrip.addReg x y rfl⟩

theorem encodedAs_subReg (x y : RegIdx) : encodedAs (.subReg x y) 0x8005 0xF00F :=
  ⟨encXY_and_functionMask 0x8 x y 5, Laws.RoundTrip.subReg x y rfl⟩

theorem encodedAs_shr (x y : RegIdx) : encodedAs (.shr x y) 0x8006 0xF00F :=
  ⟨encXY_and_functionMask 0x8 x y 6, Laws.RoundTrip.shr x y rfl⟩

theorem encodedAs_subn (x y : RegIdx) : encodedAs (.subn x y) 0x8007 0xF00F :=
  ⟨encXY_and_functionMask 0x8 x y 7, Laws.RoundTrip.subn x y rfl⟩

theorem encodedAs_shl (x y : RegIdx) : encodedAs (.shl x y) 0x800E 0xF00F :=
  ⟨encXY_and_functionMask 0x8 x y 0xE, Laws.RoundTrip.shl x y rfl⟩

theorem encodedAs_jpV0 (nnn : BitVec 12) : encodedAs (.jpV0 nnn) 0xB000 0xF000 :=
  ⟨encA_and_familyMask 0xB nnn, Laws.RoundTrip.jpV0 nnn rfl⟩

theorem encodedAs_rnd (x : RegIdx) (nn : Byte) : encodedAs (.rnd x nn) 0xC000 0xF000 :=
  ⟨encX_and_familyMask 0xC x nn, Laws.RoundTrip.rnd x nn rfl⟩

theorem encodedAs_drw (x y : RegIdx) {n : Nat} (hn : n ≤ 15) : encodedAs (.drw x y n) 0xD000 0xF000 :=
  ⟨encXY_and_familyMask 0xD x y _, Laws.RoundTrip.drw x y n (decide_eq_true hn)⟩

theorem encodedAs_skp (x : RegIdx) : encodedAs (.skp x) 0xE09E 0xF0FF :=
  ⟨encX_and_functionMask 0xE x 0x9E, Laws.RoundTrip.skp x rfl⟩

theorem encodedAs_sknp (x : RegIdx) : encodedAs (.sknp x) 0xE0A1 0xF0FF :=
  ⟨encX_and_functionMask 0xE x 0xA1, Laws.RoundTrip.sknp x rfl⟩

theorem encodedAs_addI (x : RegIdx) : encodedAs (.addI x) 0xF01E 0xF0FF :=
  ⟨encX_and_functionMask 0xF x 0x1E, Laws.RoundTrip.addI x rfl⟩

theorem encodedAs_ldB (x : RegIdx) : encodedAs (.ldB x) 0xF033 0xF0FF :=
  ⟨encX_and_functionMask 0xF x 0x33, Laws.RoundTrip.ldB x rfl⟩

theorem encodedAs_stRegs (x : RegIdx) : encodedAs (.stRegs x) 0xF055 0xF0FF :=
  ⟨encX_and_functionMask 0xF x 0x55, Laws.RoundTrip.stRegs x rfl⟩

theorem encodedAs_ldRegs (x : RegIdx) : encodedAs (.ldRegs x) 0xF065 0xF0FF :=
  ⟨encX_and_functionMask 0xF x 0x65, Laws.RoundTrip.ldRegs x rfl⟩

end Sys2Proof.Machine

namespace Sys2Proof

/-! ## The unrecognized words -/

theorem decodeAlu_eq_none (x y : RegIdx) {n : Nat} (hn : n < 16) :
    decodeAlu x y n = none ↔ n ∈ [0x8, 0x9, 0xA, 0xB, 0xC, 0xD, 0xF] := by
  interval_cases n <;> simp [decodeAlu]

theorem decodeKeyTest_eq_none (x : RegIdx) (nn : Byte) : decodeKeyTest x nn = none ↔ nn ≠ 0x9E ∧ nn ≠ 0xA1 := by
  unfold decodeKeyTest
  split_ifs <;> simp_all

theorem decodeMisc_eq_none (x : RegIdx) (nn : Byte) :
    decodeMisc x nn = none ↔ nn ∉ ([0x07, 0x0A, 0x15, 0x18, 0x1E, 0x29, 0x33, 0x55, 0x65] : List Byte) := by
  unfold decodeMisc
  split_ifs <;> simp_all

theorem fieldNN_eq_iff (w : Word) (b : Byte) : fieldNN w = b ↔ w.toNat % 256 = b.toNat := by
  rw [← BitVec.toNat_inj, fieldNN_toNat]

theorem fieldNNN_eq_iff (w : Word) (b : BitVec 12) : fieldNNN w = b ↔ w.toNat % 4096 = b.toNat := by
  rw [← BitVec.toNat_inj, fieldNNN_toNat]

theorem fieldOp_toNat_eq_div (w : Word) : (fieldOp w).toNat = w.toNat / 4096 := by
  have := w.isLt
  rw [fieldOp_toNat]
  omega

/-- Settles O4, family by family. -/
theorem unrecognizedWordsByFamily : Obligations.UnrecognizedWordsByFamily := by
  intro w
  have hfamily : w.toNat / 4096 < 16 := by have := w.isLt; omega
  have hn : w.toNat % 16 < 16 := Nat.mod_lt _ (by decide)
  have hzero (h : w.toNat / 4096 = 0) : w.toNat % 4096 = w.toNat := Nat.mod_eq_of_lt (by omega)
  rw [decodeWord, fieldOp_toNat_eq_div, fieldN_eq]
  generalize w.toNat / 4096 = op at *
  interval_cases op <;>
    simp [decodeFields, decodeAlu_eq_none _ _ hn, decodeKeyTest_eq_none, decodeMisc_eq_none, fieldNN_eq_iff,
      fieldNNN_eq_iff, hzero, ite_eq_iff]

/-! ## The rows a word selects -/

/-- Every instruction's word selects its row, whatever the operands. -/
theorem row_selectedBy_encodeWord (i : Instr) : ∃ r, i.row? = some r ∧ r.selectedBy (encodeWord i) := by
  cases i with
  | cls | ret => exact ⟨_, rfl, by decide⟩
  | jp | call | ldI | jpV0 => exact ⟨_, rfl, encA_and_familyMask ..⟩
  | seImm | sneImm | ldImm | addImm | rnd => exact ⟨_, rfl, encX_and_familyMask ..⟩
  | drw => exact ⟨_, rfl, encXY_and_familyMask ..⟩
  | skp | sknp | ldVxDt | ldDtVx | ldStVx | ldVxK | addI | ldF | ldB | stRegs | ldRegs =>
    exact ⟨_, rfl, encX_and_functionMask ..⟩
  | _ => exact ⟨_, rfl, encXY_and_functionMask ..⟩

theorem row_selectedBy_of_decodeWord {w : Word} {i : Instr} (h : decodeWord w = some i) :
    ∃ r, i.row? = some r ∧ r.selectedBy w := by
  obtain ⟨-, rfl⟩ := encodesTo_of_decodeWord h
  exact row_selectedBy_encodeWord i

/-- What the four masks of the map keep of a word. -/
theorem toNat_and_familyMask (w : Word) : (w &&& 0xF000).toNat = w.toNat / 4096 * 4096 := by
  have := w.isLt
  rw [eq_encXY w, encXY_and_familyMask, toNat_nibbles, fieldOp_toNat, ← eq_encXY]
  simp only [BitVec.ofNat_eq_ofNat, BitVec.toNat_ofNat]
  omega

theorem toNat_and_codeMask (w : Word) : (w &&& 0xF00F).toNat = w.toNat / 4096 * 4096 + w.toNat % 16 := by
  have := w.isLt
  rw [eq_encXY w, encXY_and_functionMask, toNat_nibbles, fieldOp_toNat, ← eq_encXY, fieldN_eq]
  simp only [BitVec.ofNat_eq_ofNat, BitVec.toNat_ofNat]
  omega

theorem toNat_and_functionMask (w : Word) : (w &&& 0xF0FF).toNat = w.toNat / 4096 * 4096 + w.toNat % 256 := by
  have := w.isLt
  rw [eq_encX w, encX_and_functionMask, encX, toNat_nibbles, fieldOp_toNat, ← eq_encX]
  simp only [BitVec.extractLsb'_toNat, fieldNN_toNat, Nat.shiftRight_eq_div_pow]
  simp only [nib, BitVec.toNat_ofFin, Fin.val_zero]
  omega

theorem toNat_and_wholeMask (w : Word) : (w &&& 0xFFFF).toNat = w.toNat :=
  congrArg BitVec.toNat (BitVec.and_allOnes (x := w))

/-- A word that selects a row of the map is recognized. -/
theorem decodeWord_ne_none_of_selectedBy (w : Word) : ∀ r ∈ opcodeTable, r.selectedBy w → decodeWord w ≠ none := by
  simp only [opcodeTable, opcodeRowsControl, opcodeRowsAlu, opcodeRowsWide, opcodeRowsMisc, List.cons_append,
    List.nil_append, ne_eq, unrecognizedWordsByFamily w, List.mem_cons, List.not_mem_nil, or_false, forall_eq_or_imp,
    forall_eq]
  simp only [OpcodeRow.selectedBy, ← BitVec.toNat_inj, toNat_and_familyMask, toNat_and_codeMask,
    toNat_and_functionMask, toNat_and_wholeMask, BitVec.reduceToNat]
  and_intros <;> omega

/-- A word is unrecognized exactly when it selects no row. -/
theorem decodeWord_eq_none_iff (w : Word) : decodeWord w = none ↔ ∀ r ∈ opcodeTable, ¬ r.selectedBy w := by
  constructor
  · exact fun h r hr hs => decodeWord_ne_none_of_selectedBy w r hr hs h
  · intro h
    cases hw : decodeWord w with
    | none => rfl
    | some i =>
      obtain ⟨r, hrow, hs⟩ := row_selectedBy_of_decodeWord hw
      exact absurd hs (h r (List.mem_of_getElem? hrow))

/-- Two rows that one word selects agree on every bit that both masks keep. -/
theorem pattern_and_mask_of_selectedBy {q r : OpcodeRow} {w : Word} (hq : q.selectedBy w) (hr : r.selectedBy w) :
    q.pattern &&& r.mask = r.pattern &&& q.mask := by
  rw [← hq, ← hr]
  ac_rfl

/-- No two rows of the map agree so. -/
theorem opcodeTable_disjoint : ∀ j k : Fin 34,
    opcodeTable[j.val].pattern &&& opcodeTable[k.val].mask = opcodeTable[k.val].pattern &&& opcodeTable[j.val].mask →
      j = k := by
  decide

/-- Settles O3: a recognized word is its instruction's encoding, which selects the row; the rows are disjoint because no two
agree on the bits that both masks keep. -/
theorem decodeFollowsTheOpcodeMap : Obligations.DecodeFollowsTheOpcodeMap := by
  intro w
  refine ⟨fun i h => row_selectedBy_of_decodeWord h, decodeWord_eq_none_iff w, rfl, fun j k q r hq hr hqw hrw => ?_⟩
  obtain ⟨hj, rfl⟩ := List.getElem?_eq_some_iff.1 hq
  obtain ⟨hk, rfl⟩ := List.getElem?_eq_some_iff.1 hr
  exact congrArg Fin.val (opcodeTable_disjoint ⟨j, hj⟩ ⟨k, hk⟩ (pattern_and_mask_of_selectedBy hqw hrw))

/-- Settles O5, by evaluating the decoder on the seven words. -/
theorem wordsFromTheSpecDecode : Obligations.WordsFromTheSpecDecode := by
  unfold Obligations.WordsFromTheSpecDecode
  decide

end Sys2Proof
end

section
/-! The step cycle (40_execution_cycle.md; 60_exceptions.md section 1; 70_reset_and_hazards.md section 4): what a step
answers, its redraw result, the exception it takes, and the parked states. -/

namespace Sys2Proof.Machine

/-! ## Every step answers a next state -/

/-- Only a transfer through I and a key test can raise, and a raise is committed as a next state. -/
theorem exec_total (i : Instr) (s : State) : ∃ t, exec i s = .next t := by
  cases i with
  | drw | ldRegs | ldB | stRegs | skp | sknp => exact commit_total s _
  | _ => exact ⟨_, rfl⟩

theorem step_total (s : State) : ∃ t, step s = .next t := by
  rcases step_cases s with ⟨-, hs⟩ | ⟨-, e, -, hs⟩ | ⟨-, bytes, why, -, -, hs⟩ | ⟨-, bytes, i, rest, -, -, hs⟩
  · exact ⟨_, hs⟩
  · exact ⟨_, hs⟩
  · exact ⟨_, hs⟩
  · exact hs ▸ exec_total i s

/-- Settles O9. -/
theorem everyStepAnswersNext : Obligations.EveryStepAnswersNext := ⟨step_total, exec_total⟩

/-! ## What a step fetches and runs -/

/-- A pc where `withFetchWord` places a word is one a fetch can be made at. -/
theorem fetchablePc_fetchable (s : State) : s.cfg.oorPolicy = .wrap ∨ s.fetchablePc.toNat + 1 < memSize := by
  cases hp : s.cfg.oorPolicy with
  | wrap => exact .inl rfl
  | fault =>
    refine .inr ?_
    unfold State.fetchablePc
    split
    · decide
    · rename_i h
      exact Nat.lt_of_not_le fun hle => h ⟨hp, hle⟩

/-- The state `withFetchWord` makes fetches the word's two bytes. -/
theorem fetchBytes_withFetchWord (s : State) (nbits w : Nat) :
    (s.withFetchWord nbits w).fetchBytes = .ok (bytesOfWord (tableWord nbits w)) := by
  have hpc : (s.withFetchWord nbits w).pc = s.fetchablePc := rfl
  have hcfg : (s.withFetchWord nbits w).cfg = s.cfg := rfl
  have hne : s.fetchablePc.toNat % memSize ≠ (s.fetchablePc.toNat + 1) % memSize := by
    simp only [memSize]
    omega
  have hread : s.cfg.oorPolicy = .wrap ∨ s.fetchablePc.toNat + 2 ≤ memSize := fetchablePc_fetchable s
  rw [State.fetchBytes, readBytes_ok _ _ _ _ (by rwa [hpc, hcfg])]
  simp [State.withFetchWord, byteAt_setByte, List.range_succ, hne, bytesOfWord]

/-- Settles O6: the two readings of a fetch, the step on a decoded instruction, and the placed word. -/
theorem stepRunsTheDecodedInstruction : Obligations.StepRunsTheDecodedInstruction := by
  refine fun s => ⟨fetchBytes_of_lt, fetchBytes_of_wrap, fun bytes i rest => step_instr, fun w i hw => ?_⟩
  unfold decodeTableWord at hw
  split at hw
  next j rest hd =>
    cases hw
    exact step_instr rfl (fetchBytes_withFetchWord s 16 w) hd
  next => cases hw

/-- Settles O7. -/
theorem unrecognizedWordOnlyAdvances : Obligations.UnrecognizedWordOnlyAdvances :=
  fun _ _ _ => step_rejected

/-- Settles O8: the first fetch address out of range is pc, but for pc = 0xFFF, where it is 0x1000. -/
theorem fetchOutsideMemoryIsTaken : Obligations.FetchOutsideMemoryIsTaken := by
  intro s hp hr hpc
  have hfetch : s.fetchBytes = .error ⟨.fetchOutOfRange, BitVec.ofNat 16 (max s.pc.toNat memSize)⟩ :=
    readBytes_fault s .fetchOutOfRange 2 s.pc.toNat hp (by decide) (by simp only [memSize]; omega)
  have hvalue : BitVec.ofNat 16 (max s.pc.toNat memSize) = if s.pc = 0x0FFF then 0x1000 else s.pc := by
    split
    · rename_i h
      rw [h]
      rfl
    · rename_i h
      have hne : s.pc.toNat ≠ 0xFFF := fun he => h (BitVec.eq_of_toNat_eq he)
      rw [Nat.max_eq_left (by simp only [memSize]; omega), BitVec.ofNat_toNat, BitVec.setWidth_eq]
  rw [step_fetch_error hr hfetch, State.takeOutOfRange, hvalue]

/-! ## What an instruction or an exception leaves of the step's result -/

/-- Settles O10: an exception leaves a Faulted core and redraw = false, and an instruction that raises nothing leaves a
running core not Faulted, with redraw set by 00E0 and Dxyn alone. -/
theorem redrawAfterDisplayInstructionsOnly : Obligations.RedrawAfterDisplayInstructionsOnly := by
  intro s t bytes rest i hr hf hd hs
  rw [step_instr hr hf hd] at hs
  rcases exec_cases hs with ⟨e, -, rfl⟩ | hc
  · refine iff_of_false (by simp) fun h => ?_
    exact h.1 _ (takeOutOfRange_execState s e)
  · have hsafe : Safe t := fun info hi => safe_of_running hr info (hc.noFault info hi)
    rw [hc.redraw, and_iff_right hsafe]

/-- The state after an exception, by its record. -/
theorem eq_of_takeOutOfRange_faulted {s t : State} {e : OutOfRange} {info : FaultInfo} (ht : t = s.takeOutOfRange e)
    (h : t.execState = .faulted info) :
    t = { s with execState := .faulted info, redraw := false } ∧ info.faultPc = s.pc := by
  subst ht
  cases h
  exact ⟨rfl, rfl⟩

/-- Settles O11: a running step that ends Faulted is one of the two that take an exception. -/
theorem raisingStepCommitsNothing : Obligations.RaisingStepCommitsNothing := by
  intro s t info hr hs ht
  rcases step_cases s with ⟨hidle, -⟩ | ⟨-, e, hf, hs'⟩ | ⟨-, bytes, why, -, -, hs'⟩ | ⟨-, bytes, i, rest, -, -, hs'⟩
  · exact absurd hr hidle
  · have heq : t = s.takeOutOfRange e := Host.Outcome.next.inj (hs.symm.trans hs')
    obtain ⟨hframe, hpc⟩ := eq_of_takeOutOfRange_faulted heq ht
    exact ⟨hframe, hpc, (fetchBytes_error hf).1⟩
  · have heq : t = s.advance := Host.Outcome.next.inj (hs.symm.trans hs')
    subst heq
    exact absurd ht (safe_of_running (s := s.advance) hr info)
  · rcases exec_cases (hs'.symm.trans hs) with ⟨e, ⟨hp, -⟩, heq⟩ | hc
    · obtain ⟨hframe, hpc⟩ := eq_of_takeOutOfRange_faulted heq ht
      exact ⟨hframe, hpc, hp⟩
    · exact absurd (hc.noFault info ht) (safe_of_running hr info)

/-! ## Parked states -/

/-- Settles O26: two kinds of idle step, and a jump whose target is its own address. -/
theorem parkedStates : Obligations.ParkedStates := by
  intro s
  refine ⟨fun ⟨info, h⟩ => step_idle (by simp [h]), fun ⟨x, h⟩ => step_idle (by simp [h]), ?_⟩
  intro bytes rest nnn hr hf hd hself
  have hpc : zextNNN nnn = s.pc := BitVec.eq_of_toNat_eq ((toNat_zextNNN nnn).trans hself)
  rw [Parked, step_instr hr hf hd, exec_jp, hpc]
  rfl

end Sys2Proof.Machine
end

section
/-! Which instruction can change which state (10_state.md; 20_memory.md section 2; 42_register_alu.md section 4), and the
random draw. -/

namespace Sys2Proof.Machine

/-! ## The writers of each field -/

/-- Settles O16: an exception keeps all these fields but the execution state, and an instruction that raises nothing changes
the fields its meaning names. -/
theorem onlyTheNamedInstructionsWrite : Obligations.OnlyTheNamedInstructionsWrite := by
  intro i s t h
  cases i with
  | drw | ldRegs =>
    rcases commit_read_cases h with ⟨e, -, rfl⟩ | ⟨bs, rfl⟩
    · simp
    · simp
  | skp | sknp =>
    rcases commit_key_cases h with ⟨e, -, rfl⟩ | ⟨k, rfl⟩
    · simp
    · simp
  | ldB | stRegs =>
    rcases commit_write_cases h with ⟨e, -, rfl⟩ | hw
    · simp
    · rw [(writeBytes_frame hw).1]
      simp
  | _ => cases h; simp

/-! ## The writers of a register -/

theorem eq_of_reg_setReg_ne {s : State} {x z : RegIdx} {b : Byte} (h : (s.setReg x b).reg z ≠ s.reg z) : z = x := by
  by_contra hz
  exact h (reg_setReg_other s x z b hz)

theorem eq_of_reg_setRegThenFlag_ne {s : State} {x z : RegIdx} {b : Byte} {f : Bool}
    (h : (s.setRegThenFlag x b f).reg z ≠ s.reg z) : z = x ∨ z = vf := by
  by_contra hz
  obtain ⟨hx, hf⟩ := not_or.1 hz
  exact h (by rw [reg_setRegThenFlag, if_neg hf, if_neg hx])

/-- Loading a list of bytes keeps the registers past its end. -/
theorem lt_length_of_reg_loadRegs_ne {s : State} {bs : List Byte} {z : RegIdx}
    (h : (s.loadRegs bs).reg z ≠ s.reg z) : z.val < bs.length := by
  by_contra hz
  exact h (by rw [reg_loadRegs, List.getD_eq_default _ _ (Nat.le_of_not_lt hz)])

/-- Fx65 changes no register above Vx, whether it loads or raises. -/
theorem le_of_execLdRegs_ne {x z : RegIdx} {s t : State} (h : exec (.ldRegs x) s = .next t) (hne : t.reg z ≠ s.reg z) :
    z ≤ x := by
  rcases accessible_or_inaccessible s (Nat.succ_pos x.val) with ha | ha
  · cases (commit_read_ok s (x.val + 1) s.advance.loadRegs ha).symm.trans h
    have hlt := lt_length_of_reg_loadRegs_ne hne
    rw [List.length_map, List.length_range] at hlt
    exact Nat.le_of_lt_succ hlt
  · cases (commit_read_fault s (x.val + 1) s.advance.loadRegs ha).symm.trans h
    exact absurd rfl hne

/-- Settles O17. -/
theorem onlyTheListedRegistersChange : Obligations.OnlyTheListedRegistersChange := by
  intro i s t z h hne
  cases i with
  | ldImm | addImm | ldReg | orReg | andReg | xorReg | ldVxDt => cases h; exact eq_of_reg_setReg_ne (s := s.advance) hne
  | rnd => cases h; exact eq_of_reg_setReg_ne (s := s.advance.consumeDraw) hne
  | addReg | subReg | shr | subn | shl => cases h; exact eq_of_reg_setRegThenFlag_ne (s := s.advance) hne
  | ldRegs x => exact le_of_execLdRegs_ne h hne
  | drw =>
    rcases commit_read_cases h with ⟨e, -, rfl⟩ | ⟨bs, rfl⟩
    · exact absurd rfl hne
    · exact eq_of_reg_setReg_ne (s := s.advance) hne
  | skp | sknp =>
    rcases commit_key_cases h with ⟨e, -, rfl⟩ | ⟨k, rfl⟩
    · exact absurd rfl hne
    · exact absurd (reg_skipIf s.advance _ z) hne
  | ldB | stRegs =>
    rcases commit_write_cases h with ⟨e, -, rfl⟩ | hw
    · exact absurd rfl hne
    · rw [(writeBytes_frame hw).1] at hne
      exact absurd rfl hne
  | _ => cases h; exact absurd (reg_congr (by simp) z) hne

/-! ## The draw given with a step -/

/-- The same machine with another draw at hand. -/
def State.withDraw (s : State) (d : Option Byte) : State := { s with draw := d }

theorem readBytes_withDraw (s : State) (d : Option Byte) (r : FaultReason) (n addr : Nat) :
    (s.withDraw d).readBytes r n addr = s.readBytes r n addr := by
  induction n generalizing addr with
  | zero => rfl
  | succ n ih =>
    rw [State.readBytes, State.readBytes, ih]
    rfl

theorem fetchBytes_withDraw (s : State) (d : Option Byte) : (s.withDraw d).fetchBytes = s.fetchBytes :=
  readBytes_withDraw s d ..

theorem writeBytes_withDraw (s : State) (d : Option Byte) (bs : List Byte) (addr : Nat) :
    (s.withDraw d).writeBytes bs addr = (s.writeBytes bs addr).map (State.withDraw · d) := by
  induction bs generalizing s addr with
  | nil => rfl
  | cons b bs ih =>
    have hcheck : rangeCheck (s.withDraw d).cfg.oorPolicy .dataOutOfRange addr =
        rangeCheck s.cfg.oorPolicy .dataOutOfRange addr := rfl
    rw [State.writeBytes, State.writeBytes, hcheck]
    cases rangeCheck s.cfg.oorPolicy .dataOutOfRange addr with
    | error e => rfl
    | ok a => exact ih (s.setByte a b) (addr + 1)

/-- Committing with another draw at hand: the same outcome, the draw kept. -/
theorem commit_withDraw {α : Type} {s t : State} {d : Option Byte} {r : Except OutOfRange α} {f g : α → State}
    (hfg : ∀ a, g a = (f a).withDraw d) (h : commit s (r.map f) = .next t) :
    commit (s.withDraw d) (r.map g) = .next (t.withDraw d) := by
  cases r with
  | error e => cases h; rfl
  | ok a =>
    cases h
    exact congrArg Host.Outcome.next (hfg a)

theorem commit_writeBytes_withDraw {s t : State} {d : Option Byte} {bs : List Byte} {addr : Nat}
    (h : commit s (s.advance.writeBytes bs addr) = .next t) :
    commit (s.withDraw d) ((s.withDraw d).advance.writeBytes bs addr) = .next (t.withDraw d) := by
  have hw : (s.withDraw d).advance.writeBytes bs addr = (s.advance.writeBytes bs addr).map (State.withDraw · d) :=
    writeBytes_withDraw s.advance d bs addr
  rw [hw]
  exact commit_withDraw (f := id) (fun _ => rfl) (by rwa [Except.map_id])

theorem skipIf_withDraw (s : State) (d : Option Byte) (c : Bool) :
    (s.withDraw d).skipIf c = (s.skipIf c).withDraw d := by
  cases c <;> rfl

theorem callTo_withDraw (s : State) (d : Option Byte) (w : Word) :
    (s.withDraw d).callTo w = (s.callTo w).withDraw d := by
  by_cases h : s.sp.val < 16
  · rw [callTo_of_lt s w h, callTo_of_lt (s.withDraw d) w h]
    rfl
  · rw [callTo_of_full s w h, callTo_of_full (s.withDraw d) w h]

theorem popToPc_withDraw (s : State) (d : Option Byte) : (s.withDraw d).popToPc = s.popToPc.withDraw d := by
  by_cases h : 0 < s.sp.val
  · rw [popToPc_of_pos s h, popToPc_of_pos (s.withDraw d) h]
    rfl
  · rw [popToPc_of_empty s h, popToPc_of_empty (s.withDraw d) h]

/-- An instruction other than Cxnn neither reads nor takes the draw. -/
theorem exec_withDraw {i : Instr} {s t : State} (d : Option Byte) (hi : ∀ x nn, i ≠ .rnd x nn)
    (h : exec i s = .next t) : exec i (s.withDraw d) = .next (t.withDraw d) := by
  cases i with
  | rnd x nn => exact absurd rfl (hi x nn)
  | ret => cases h; exact congrArg Host.Outcome.next (popToPc_withDraw s.advance d)
  | call => cases h; exact congrArg Host.Outcome.next (callTo_withDraw s.advance d _)
  | seImm | sneImm | seReg | sneReg => cases h; exact congrArg Host.Outcome.next (skipIf_withDraw s.advance d _)
  | skp | sknp => exact commit_withDraw (fun _ => skipIf_withDraw s.advance d _) h
  | ldB | stRegs => exact commit_writeBytes_withDraw h
  | ldRegs | drw =>
    show commit (s.withDraw d) (((s.withDraw d).readBytes _ _ _).map _) = _
    rw [readBytes_withDraw]
    exact commit_withDraw (fun _ => rfl) h
  | _ => cases h; rfl

/-- A step that does not fetch Cxnn keeps the draw at hand and does not depend on it. -/
theorem step_withDraw {s t : State} (d : Option Byte)
    (hs : ∀ bytes rest x nn, s.fetchBytes = .ok bytes → decode bytes ≠ .instr (.rnd x nn) rest)
    (h : step s = .next t) : step (s.withDraw d) = .next (t.withDraw d) := by
  have hf' := fetchBytes_withDraw s d
  rcases step_cases s with ⟨hr, ht⟩ | ⟨hr, e, hf, ht⟩ | ⟨hr, bytes, why, hf, hd, ht⟩ | ⟨hr, bytes, i, rest, hf, hd, ht⟩
  · cases ht.symm.trans h
    exact step_idle hr
  · cases ht.symm.trans h
    exact step_fetch_error hr (hf'.trans hf)
  · cases ht.symm.trans h
    exact step_rejected hr (hf'.trans hf) hd
  · rw [step_instr (s := s.withDraw d) hr (hf'.trans hf) hd]
    exact exec_withDraw d (fun x nn hi => hs bytes rest x nn hf (hi ▸ hd)) (ht.symm.trans h)

/-- A host step answers what its step answers, without the draw. -/
theorem hostStep_of_step {s u : State} {r : Byte} (h : step (s.withDraw (some r)) = .next u) :
    s.hostStep r = .next (u.withDraw none, .redraw u.redraw) := by
  have h' : step { s with draw := some r } = .next u := h
  rw [State.hostStep, h']
  rfl

/-- Settles O18: with either draw the host's step is the drawless step of the same state. -/
theorem drawMattersToRndOnly : Obligations.DrawMattersToRndOnly := by
  intro s r r' hs
  obtain ⟨t, ht⟩ := step_total s
  have hstep (b : Byte) : s.hostStep b = .next (t.withDraw none, .redraw t.redraw) :=
    hostStep_of_step (u := t.withDraw (some b)) (step_withDraw (some b) hs ht)
  exact (hstep r).trans (hstep r').symm

theorem exec_rnd (x : RegIdx) (nn : Byte) (s : State) :
    exec (.rnd x nn) s = .next (s.advance.consumeDraw.setReg x (s.randomByte &&& nn)) := rfl

/-- Settles O32: one draw is taken and masked by nn into Vx. -/
theorem randomIsMaskedDraw : Obligations.RandomIsMaskedDraw := by
  refine fun s x nn => ⟨encodedAs_rnd x nn, _, exec_rnd x nn s, sameMemory_of rfl rfl, rfl,
    fun z => reg_setReg s.advance.consumeDraw x z _, ?_⟩
  rw [reg_setReg_same, BitVec.and_assoc, BitVec.and_not_self]
  exact BitVec.and_zero

/-- Settles O33: the host's draw is the random byte of the step that runs Cxnn. -/
theorem hostDrawReachesRnd : Obligations.HostDrawReachesRnd := by
  intro s r nn x bytes rest hr hf hd
  have hstep : step (s.withDraw (some r)) = exec (.rnd x nn) (s.withDraw (some r)) :=
    step_instr hr ((fetchBytes_withDraw s _).trans hf) hd
  exact ⟨_, hostStep_of_step (hstep.trans (exec_rnd x nn _)), fun z => reg_setReg s x z (r &&& nn), rfl⟩

end Sys2Proof.Machine
end

section
/-! Transfers through I (43_index_memory.md section 2; 20_memory.md sections 3 and 7): Fx33, Fx55, Fx65 where the bytes can
be accessed, Fx55 then Fx65, and a store over the next instruction. -/

namespace Sys2Proof.Machine

theorem exec_ldB (x : RegIdx) (s : State) :
    exec (.ldB x) s = commit s (s.advance.writeBytes (decimalDigits (s.reg x)) (s.dataAddr 0)) := rfl

theorem exec_stRegs (x : RegIdx) (s : State) :
    exec (.stRegs x) s = commit s (s.advance.writeBytes (s.regsUpTo x) (s.dataAddr 0)) := rfl

theorem exec_ldRegs (x : RegIdx) (s : State) :
    exec (.ldRegs x) s =
      commit s ((s.readBytes .dataOutOfRange (x.val + 1) (s.dataAddr 0)).map s.advance.loadRegs) := rfl

theorem exec_drw (x y : RegIdx) (n : Nat) (s : State) :
    exec (.drw x y n) s =
      commit s ((s.readBytes .dataOutOfRange n (s.dataAddr 0)).map (s.advance.drawSprite (s.reg x) (s.reg y))) := rfl

/-! ## Stores -/

/-- Each digit of a byte is below 10 and so is its own value as a byte. -/
theorem toNat_decimalDigits (b : Byte) :
    (decimalDigits b).map BitVec.toNat = [b.toNat / 100, b.toNat / 10 % 10, b.toNat % 10] := by
  have := b.isLt
  simp only [decimalDigits, List.map_cons, List.map_nil, BitVec.toNat_ofNat, List.cons.injEq, and_true]
  omega

/-- Settles O36: the three bytes stored are the decimal digits. -/
theorem bcdStoresDecimalDigits : Obligations.BcdStoresDecimalDigits := by
  intro s x h
  obtain ⟨t, ht, hframe, hstored, hkept⟩ := commit_write_ok s (decimalDigits (s.reg x)) h (show 3 ≤ 4096 by decide)
  have hdigits := toNat_decimalDigits (s.reg x)
  simp only [decimalDigits, List.map_cons, List.map_nil, List.cons.injEq, and_true] at hdigits
  obtain ⟨hhundreds, htens, hones⟩ := hdigits
  exact ⟨encodedAs_ldB x, t, ht, hframe,
    fun a ha => by rw [hstored 0 a (show 0 < 3 by decide) ha]; exact hhundreds,
    fun a ha => by rw [hstored 1 a (show 1 < 3 by decide) ha]; exact htens,
    fun a ha => by rw [hstored 2 a (show 2 < 3 by decide) ha]; exact hones, hkept⟩

/-- What Fx55 answers where its bytes can be accessed: Vk at the address byte k reaches, and nothing else changed. -/
theorem exec_stRegs_of_accessible {s : State} {x : RegIdx} (h : s.accessible (x.val + 1)) :
    ∃ t, exec (.stRegs x) s = .next t ∧ MemoryOnly s t ∧
      (∀ (k : RegIdx) (a : Nat), k ≤ x → s.reaches k.val a → t.byteAt a = s.reg k) ∧
      ∀ a, (∀ k, k ≤ x.val → ¬ s.reaches k a) → t.byteAt a = s.byteAt a := by
  have hlen := length_regsUpTo s x
  have hx := x.isLt
  obtain ⟨t, ht, hframe, hstored, hkept⟩ := commit_write_ok s (s.regsUpTo x) (hlen ▸ h) (by simp only [memSize]; omega)
  refine ⟨t, ht, hframe, fun k a hk ha => ?_, fun a ha => hkept a fun k hk => ha k (by omega)⟩
  have hlt : k.val < (s.regsUpTo x).length := by
    rw [hlen]
    exact Nat.lt_succ_of_le hk
  rw [hstored k.val a hlt ha, getElem_regsUpTo]

/-- Settles O37. -/
theorem storeRegistersFromIndexUp : Obligations.StoreRegistersFromIndexUp :=
  fun _ x h => ⟨encodedAs_stRegs x, exec_stRegs_of_accessible h⟩

/-! ## Loads -/

/-- What Fx65 answers where its bytes can be accessed. -/
theorem exec_ldRegs_of_accessible {s : State} {x : RegIdx} (h : s.accessible (x.val + 1)) :
    exec (.ldRegs x) s = .next (s.advance.loadRegs
      ((List.range (x.val + 1)).map fun k => s.byteAt ((s.index.toNat + k) % memSize))) :=
  commit_read_ok s (x.val + 1) s.advance.loadRegs h

/-- A register of a transfer is loaded with its byte, every other is kept. -/
theorem reg_loadRegs_range (s : State) (f : Nat → Byte) (n : Nat) (z : RegIdx) :
    (s.loadRegs ((List.range n).map f)).reg z = if z.val < n then f z.val else s.reg z := by
  rw [reg_loadRegs]
  split
  · rename_i h
    simp [List.getD_eq_getElem?_getD, h]
  · rename_i h
    simp [List.getD_eq_getElem?_getD, h]

/-- Settles O38. -/
theorem loadRegistersFromIndexUp : Obligations.LoadRegistersFromIndexUp := by
  refine fun s x h => ⟨encodedAs_ldRegs x, _, exec_ldRegs_of_accessible h, ⟨rfl, sameMemory_of rfl rfl⟩,
    fun k a hk ha => ?_, fun k hk => ?_⟩
  · rw [reg_loadRegs_range, if_pos (Nat.lt_succ_of_le hk), reaches_eq ha]
  · rw [reg_loadRegs_range, if_neg (Nat.not_lt_of_le hk)]
    rfl

/-! ## Transfers that raise -/

/-- Settles O39: each meaning is one write or one read of the run that leaves memory. -/
theorem dataOutsideMemoryIsTaken : Obligations.DataOutsideMemoryIsTaken := by
  intro s x y n
  refine ⟨fun h => ?_, fun h => ?_, fun h => ?_, fun _ h => ?_⟩
  · exact commit_write_fault s (decimalDigits (s.reg x)) h
  · exact commit_write_fault s (s.regsUpTo x) ((length_regsUpTo s x).symm ▸ h)
  · exact commit_read_fault s (x.val + 1) _ h
  · exact commit_read_fault s n _ h

/-! ## Two transfers in a row, and a store over the next instruction -/

/-- What a store keeps of the fields a transfer reads, and the pc it leaves. -/
theorem memoryOnly_fields {s t : State} (h : MemoryOnly s t) :
    t.v = s.v ∧ t.index = s.index ∧ t.cfg = s.cfg ∧ t.pc = s.pc + 2 := by
  unfold MemoryOnly at h
  rw [h]
  exact ⟨rfl, rfl, rfl, rfl⟩

/-- The bytes a transfer can access depend on the policy and I alone. -/
theorem accessible_congr {s t : State} {n : Nat} (hc : t.cfg = s.cfg) (hi : t.index = s.index) (h : s.accessible n) :
    t.accessible n := by
  unfold State.accessible at *
  rwa [hc, hi]

/-- Settles O40: what Fx65 loads into Vk is what Fx55 stored from it. -/
theorem storeThenLoadRestoresRegisters : Obligations.StoreThenLoadRestoresRegisters := by
  intro s x h
  obtain ⟨t, ht, hframe, hstored, -⟩ := exec_stRegs_of_accessible h
  obtain ⟨hv, hindex, hcfg, -⟩ := memoryOnly_fields hframe
  refine ⟨t, _, ht, exec_ldRegs_of_accessible (accessible_congr hcfg hindex h), hindex, fun z => ?_⟩
  rw [reg_loadRegs_range]
  split
  · rename_i hz
    rw [hindex]
    exact hstored z _ (Nat.le_of_lt_succ hz) (reaches_of_accessible h hz)
  · exact reg_congr hv z

/-- Settles O41: the two bytes Fx55 stores from I up lie at the pc after it. -/
theorem storedWordIsFetchedNext : Obligations.StoredWordIsFetchedNext := by
  intro s hpc hindex
  have hnext : (s.pc + 2).toNat = s.pc.toNat + 2 := by
    simp only [BitVec.toNat_add, BitVec.reduceToNat]
    omega
  have hacc : s.accessible ((1 : RegIdx).val + 1) := .inr (by rw [hindex, hnext]; exact hpc)
  obtain ⟨t, ht, hframe, hstored, -⟩ := exec_stRegs_of_accessible hacc
  obtain ⟨-, -, -, hpc'⟩ := memoryOnly_fields hframe
  have htpc : t.pc.toNat = s.pc.toNat + 2 := hpc' ▸ hnext
  have hreach (k : RegIdx) (hk : k ≤ 1) : s.reaches k.val (t.pc.toNat + k.val) := by
    have hk' : k.val ≤ 1 := hk
    have hr := reaches_of_accessible hacc (Nat.lt_succ_of_le hk')
    rwa [hindex, hnext, Nat.mod_eq_of_lt (by simp only [memSize]; omega), ← htpc] at hr
  have hstored0 : t.byteAt t.pc.toNat = s.reg 0 := hstored 0 _ (by decide) (hreach 0 (by decide))
  have hstored1 : t.byteAt (t.pc.toNat + 1) = s.reg 1 := hstored 1 _ (by decide) (hreach 1 (by decide))
  exact ⟨t, ht, by rw [fetchBytes_of_lt (by simp only [memSize]; omega), hstored0, hstored1]⟩

end Sys2Proof.Machine
end

section
/-! Sprite draws (44_display.md section 2): Dxyn where its bytes can be accessed, the collision flag, and a second draw. -/

namespace Sys2Proof.Machine

/-! ## The sprite at I and the pixels under it -/

/-- The rows of the sprite at I, as Dxyn reads them. -/
def State.spriteRows (s : State) (n : Nat) : List Byte :=
  (List.range n).map fun r => s.byteAt ((s.index.toNat + r) % memSize)

theorem length_spriteRows (s : State) (n : Nat) : (s.spriteRows n).length = n := by
  simp [State.spriteRows]

theorem spriteBit_spriteRows (s : State) {n r : Nat} (h : r < n) (c : Nat) :
    spriteBit ((s.spriteRows n).getD r 0) c = s.spriteAt r c := by
  simp [State.spriteRows, h, spriteBit, State.spriteAt]

/-- A 1 bit of the sprite at I, drawn at (Vx, Vy), lands on the pixel. -/
def State.spriteOn (s : State) (x y : RegIdx) (n : Nat) (p : Fin 64 × Fin 32) : Prop :=
  ∃ r c, r < n ∧ c < 8 ∧ s.spriteAt r c = true ∧ p = s.target x y r c

theorem spriteCovers_spriteRows (s : State) (x y : RegIdx) (n : Nat) (qx : Fin 64) (qy : Fin 32) :
    spriteCovers (s.spriteRows n) (s.reg x).toNat (s.reg y).toNat qx qy ↔ s.spriteOn x y n (qx, qy) := by
  constructor
  · rintro ⟨r, hr, c, hc, hbit, rfl, rfl⟩
    rw [length_spriteRows] at hr
    exact ⟨r, c, hr, hc, spriteBit_spriteRows s hr c ▸ hbit, rfl⟩
  · rintro ⟨r, c, hr, hc, hbit, hp⟩
    obtain ⟨rfl, rfl⟩ := Prod.ext_iff.1 hp
    exact ⟨r, (length_spriteRows s n).symm ▸ hr, c, hc, (spriteBit_spriteRows s hr c).trans hbit, rfl, rfl⟩

/-- No two bits of a sprite of at most 32 rows land on one pixel (44_display.md R193). -/
theorem target_inj {s : State} {x y : RegIdx} {r r' c c' : Nat} (hr : r < 32) (hr' : r' < 32) (hc : c < 64)
    (hc' : c' < 64) (h : s.target x y r c = s.target x y r' c') : r = r' ∧ c = c' := by
  obtain ⟨hx, hy⟩ := Prod.ext_iff.1 h
  exact ⟨wrapY_inj hr hr' hy, wrapX_inj hc hc' hx⟩

theorem spriteOn_target {s : State} {x y : RegIdx} {n r c : Nat} (hn : n ≤ 15) (hr : r < n) (hc : c < 8) :
    s.spriteOn x y n (s.target x y r c) ↔ s.spriteAt r c = true := by
  constructor
  · rintro ⟨r', c', hr', hc', hbit, hp⟩
    obtain ⟨rfl, rfl⟩ := target_inj (by omega) (by omega) (by omega) (by omega) hp
    exact hbit
  · exact fun hbit => ⟨r, c, hr, hc, hbit, rfl⟩

theorem collides_iff_spriteOn (s : State) (x y : RegIdx) (n : Nat) :
    s.collides x y n ↔ ∃ p, s.spriteOn x y n p ∧ s.pixelAt p = true := by
  constructor
  · rintro ⟨r, c, hr, hc, hbit, hp⟩
    exact ⟨_, ⟨r, c, hr, hc, hbit, rfl⟩, hp⟩
  · rintro ⟨_, ⟨r, c, hr, hc, hbit, rfl⟩, hp⟩
    exact ⟨r, c, hr, hc, hbit, hp⟩

/-! ## The state a draw leaves -/

/-- The state after a Dxyn that raises nothing. -/
def State.drawn (s : State) (x y : RegIdx) (n : Nat) : State :=
  s.advance.drawSprite (s.reg x) (s.reg y) (s.spriteRows n)

theorem exec_drw_of_accessible {s : State} {n : Nat} (x y : RegIdx) (h : s.accessible n) :
    exec (.drw x y n) s = .next (s.drawn x y n) :=
  commit_read_ok s n _ h

/-- A draw of no rows reads no memory, so that I does not matter (44_display.md R196). -/
theorem exec_drw_zero (s : State) (x y : RegIdx) : exec (.drw x y 0) s = .next (s.drawn x y 0) := rfl

theorem exec_drw_cases {s t : State} {x y : RegIdx} {n : Nat} (h : exec (.drw x y n) s = .next t) :
    t = s.drawn x y n ∨ t = s.dataFaulted := by
  rcases Nat.eq_zero_or_pos n with rfl | hn
  · exact .inl (Host.Outcome.next.inj (h.symm.trans (exec_drw_zero s x y)))
  · rcases accessible_or_inaccessible s hn with ha | ha
    · exact .inl (Host.Outcome.next.inj (h.symm.trans (exec_drw_of_accessible x y ha)))
    · exact .inr (Host.Outcome.next.inj (h.symm.trans (commit_read_fault s n _ ha)))

/-- The drawing behind Dxyn inverts the pixels under the sprite's 1 bits. -/
theorem drawn_drewOver (s : State) (x y : RegIdx) {n : Nat} (hn : n ≤ 15) :
    DrewOver ⟨s.fb, false⟩ (Drawing.sprite ⟨s.fb, false⟩ (s.reg x).toNat (s.reg y).toNat (s.spriteRows n))
      (spriteCovers (s.spriteRows n) (s.reg x).toNat (s.reg y).toNat) :=
  sprite_drewOver _ _ _ _ (by rw [length_spriteRows]; omega)

theorem pixelAt_drawn_of_spriteOn {s : State} {x y : RegIdx} {n : Nat} {p : Fin 64 × Fin 32} (hn : n ≤ 15)
    (h : s.spriteOn x y n p) : (s.drawn x y n).pixelAt p = !s.pixelAt p :=
  (drawn_drewOver s x y hn).covered p.1 p.2 ((spriteCovers_spriteRows ..).2 h)

theorem pixelAt_drawn_of_not_spriteOn {s : State} {x y : RegIdx} {n : Nat} {p : Fin 64 × Fin 32} (hn : n ≤ 15)
    (h : ¬ s.spriteOn x y n p) : (s.drawn x y n).pixelAt p = s.pixelAt p :=
  (drawn_drewOver s x y hn).kept p.1 p.2 fun hc => h ((spriteCovers_spriteRows ..).1 hc)

theorem reg_drawn_of_ne {s : State} {x y z : RegIdx} {n : Nat} (hz : z ≠ vf) : (s.drawn x y n).reg z = s.reg z := by
  rw [State.drawn, reg_drawSprite, if_neg hz, reg_advance]

theorem flagByte_eq_one_iff (f : Bool) : flagByte f = 1 ↔ f = true := by
  cases f <;> decide

theorem flagByte_of_not {f : Bool} (h : ¬ f = true) : flagByte f = 0 := by
  rw [Bool.eq_false_of_not_eq_true h]
  rfl

/-- VF after a draw is the flag of a drawing that hit exactly if the sprite collides. -/
theorem reg_vf_drawn (s : State) (x y : RegIdx) {n : Nat} (hn : n ≤ 15) :
    ∃ hit, (s.drawn x y n).reg vf = flagByte hit ∧ (hit = true ↔ s.collides x y n) := by
  refine ⟨_, by rw [State.drawn, reg_drawSprite, if_pos rfl]; rfl, (drawn_drewOver s x y hn).hit.trans ?_⟩
  rw [collides_iff_spriteOn, or_iff_right Bool.false_ne_true, Prod.exists]
  exact exists₂_congr fun qx qy => and_congr_left' (spriteCovers_spriteRows s x y n qx qy)

theorem reg_vf_drawn_eq_one_iff (s : State) (x y : RegIdx) {n : Nat} (hn : n ≤ 15) :
    (s.drawn x y n).reg vf = 1 ↔ s.collides x y n := by
  obtain ⟨hit, hvf, hhit⟩ := reg_vf_drawn s x y hn
  rw [hvf, flagByte_eq_one_iff, hhit]

theorem reg_vf_drawn_of_not_collides {s : State} {x y : RegIdx} {n : Nat} (hn : n ≤ 15) (h : ¬ s.collides x y n) :
    (s.drawn x y n).reg vf = 0 := by
  obtain ⟨hit, hvf, hhit⟩ := reg_vf_drawn s x y hn
  rw [hvf, flagByte_of_not (mt hhit.1 h)]

/-! ## The obligations -/

/-- Settles O43: each pixel is under a 1 bit of the sprite, and inverted, or not, and kept. -/
theorem drawXorsSpriteAndFlagsCollision : Obligations.DrawXorsSpriteAndFlagsCollision := by
  intro s x y n hn ha
  refine ⟨encodedAs_drw x y hn, _, exec_drw_of_accessible x y ha, rfl, sameMemory_of rfl rfl,
    fun z hz => reg_drawn_of_ne hz, fun r c hr hc => ?_, fun p hp => ?_,
    (reg_vf_drawn_eq_one_iff s x y hn).2, reg_vf_drawn_of_not_collides hn⟩
  · cases hbit : s.spriteAt r c with
    | true => rw [pixelAt_drawn_of_spriteOn hn ((spriteOn_target hn hr hc).2 hbit), Bool.xor_true]
    | false =>
      have hoff : ¬ s.spriteOn x y n (s.target x y r c) := by
        rw [spriteOn_target hn hr hc, hbit]
        decide
      rw [pixelAt_drawn_of_not_spriteOn hn hoff, Bool.xor_false]
  · exact pixelAt_drawn_of_not_spriteOn hn fun ⟨r, c, hr, hc, _, he⟩ => hp r c hr hc he

/-- A pixel that a draw erases is a 1 pixel under the sprite, where the sprite collides. -/
theorem erased_iff_spriteOn {s : State} {x y : RegIdx} {n : Nat} {p : Fin 64 × Fin 32} (hn : n ≤ 15) :
    s.pixelAt p = true ∧ (s.drawn x y n).pixelAt p = false ↔ s.spriteOn x y n p ∧ s.pixelAt p = true := by
  by_cases hon : s.spriteOn x y n p
  · rw [pixelAt_drawn_of_spriteOn hn hon]
    simp [hon]
  · rw [pixelAt_drawn_of_not_spriteOn hn hon]
    simp [hon]

/-- Settles O44: a draw that signals a redraw has raised nothing, and its flag is that of an erased pixel. -/
theorem flagIsOneIffADrawErased : Obligations.FlagIsOneIffADrawErased := by
  refine fun s x y n => ⟨fun t hn h hredraw => ?_, exec_drw_zero s x y⟩
  rcases exec_drw_cases h with rfl | rfl
  · rw [reg_vf_drawn_eq_one_iff s x y hn, collides_iff_spriteOn]
    exact exists_congr fun p => (erased_iff_spriteOn hn).symm
  · exact absurd hredraw Bool.false_ne_true

/-! ## The second draw -/

/-- A draw at coordinates other than VF leaves every coordinate and the sprite as they were. -/
theorem target_drawn {s : State} {x y : RegIdx} (n r c : Nat) (hx : x ≠ vf) (hy : y ≠ vf) :
    (s.drawn x y n).target x y r c = s.target x y r c := by
  rw [State.target, State.target, reg_drawn_of_ne hx, reg_drawn_of_ne hy]

theorem spriteAt_drawn (s : State) (x y : RegIdx) (n r c : Nat) : (s.drawn x y n).spriteAt r c = s.spriteAt r c := rfl

theorem spriteOn_drawn {s : State} {x y : RegIdx} {n : Nat} {p : Fin 64 × Fin 32} (hx : x ≠ vf) (hy : y ≠ vf) :
    (s.drawn x y n).spriteOn x y n p ↔ s.spriteOn x y n p := by
  simp only [State.spriteOn, target_drawn n _ _ hx hy, spriteAt_drawn]

/-- Two draws in a row invert each pixel under the sprite twice. -/
theorem fb_drawn_drawn {s : State} {x y : RegIdx} {n : Nat} (hn : n ≤ 15) (hx : x ≠ vf) (hy : y ≠ vf) :
    ((s.drawn x y n).drawn x y n).fb = s.fb := by
  refine framebuffer_ext fun px py => ?_
  show ((s.drawn x y n).drawn x y n).pixelAt (px, py) = s.pixelAt (px, py)
  by_cases hon : s.spriteOn x y n (px, py)
  · rw [pixelAt_drawn_of_spriteOn hn ((spriteOn_drawn hx hy).2 hon), pixelAt_drawn_of_spriteOn hn hon, Bool.not_not]
  · rw [pixelAt_drawn_of_not_spriteOn hn (mt (spriteOn_drawn hx hy).1 hon), pixelAt_drawn_of_not_spriteOn hn hon]

/-- Settles O45: the second draw meets the same sprite at the same place, over the inverted pixels. -/
theorem drawingTwiceRestoresPixels : Obligations.DrawingTwiceRestoresPixels := by
  intro s x y n hn ha hx hy
  have ha' : (s.drawn x y n).accessible n := accessible_congr (s := s) rfl rfl ha
  refine ⟨_, _, exec_drw_of_accessible x y ha, exec_drw_of_accessible x y ha', fb_drawn_drawn hn hx hy, ?_⟩
  rw [reg_vf_drawn_eq_one_iff _ x y hn]
  refine exists₂_congr fun r c => and_congr_right fun hr => and_congr_right fun hc => and_congr_right fun hbit => ?_
  have hon : s.spriteOn x y n (s.target x y r c) := (spriteOn_target hn hr hc).2 hbit
  rw [target_drawn n r c hx hy, pixelAt_drawn_of_spriteOn hn hon, Bool.not_eq_true']

end Sys2Proof.Machine
end

section
/-! Jumps, skips, the ALU family, Fx1E and the key tests (41_control_flow.md; 42_register_alu.md; 43_index_memory.md
section 1; 45_timers_input.md sections 1 and 2). -/

namespace Sys2Proof.Machine

/-! ## Control transfer -/

theorem exec_jpV0 (nnn : BitVec 12) (s : State) :
    exec (.jpV0 nnn) s = .next (s.advance.jump (zextNNN nnn + zextByte (s.reg 0))) := rfl

/-- The sum of a 12-bit literal and a byte does not wrap (41_control_flow.md R126). -/
theorem toNat_zextNNN_add_zextByte (nnn : BitVec 12) (b : Byte) :
    (zextNNN nnn + zextByte b).toNat = nnn.toNat + b.toNat := by
  have := nnn.isLt
  have := b.isLt
  rw [BitVec.toNat_add, toNat_zextNNN, toNat_zextByte, Nat.mod_eq_of_lt (by omega)]

/-- Settles O20. -/
theorem jumpWithOffsetAddsV0 : Obligations.JumpWithOffsetAddsV0 := fun s nnn =>
  ⟨encodedAs_jpV0 nnn, _, exec_jpV0 nnn s, advance_jump_pcOnly s _, toNat_zextNNN_add_zextByte nnn (s.reg 0)⟩

/-- Settles O23: both leave the state after the advance. -/
theorem fullCallAndEmptyReturnOnlyAdvance : Obligations.FullCallAndEmptyReturnOnlyAdvance := by
  refine fun s nnn => ⟨fun hfull => ?_, fun hempty => ?_⟩
  · have hroom : ¬ s.advance.sp.val < 16 := Nat.not_lt_of_le (Nat.le_of_eq hfull.symm)
    rw [exec_call, callTo_of_full s.advance _ hroom]
    rfl
  · have hentry : ¬ 0 < s.advance.sp.val := Nat.not_lt_of_le (Nat.le_of_eq hempty)
    rw [exec_ret, popToPc_of_empty s.advance hentry]
    rfl

/-! ## Skips -/

theorem exec_seImm (x : RegIdx) (nn : Byte) (s : State) :
    exec (.seImm x nn) s = .next (s.advance.skipIf (decide (s.reg x = nn))) := rfl

theorem exec_sneImm (x : RegIdx) (nn : Byte) (s : State) :
    exec (.sneImm x nn) s = .next (s.advance.skipIf (decide (s.reg x ≠ nn))) := rfl

theorem exec_seReg (x y : RegIdx) (s : State) :
    exec (.seReg x y) s = .next (s.advance.skipIf (decide (s.reg x = s.reg y))) := rfl

theorem exec_sneReg (x y : RegIdx) (s : State) :
    exec (.sneReg x y) s = .next (s.advance.skipIf (decide (s.reg x ≠ s.reg y))) := rfl

theorem pc_skipIf_decide (s : State) (p : Prop) [Decidable p] :
    (s.advance.skipIf (decide p)).pc = if p then s.pc + 4 else s.pc + 2 := by
  simp only [pc_advance_skipIf, decide_eq_true_eq]

theorem pc_skipIf_decide_not (s : State) (p : Prop) [Decidable p] :
    (s.advance.skipIf (decide ¬ p)).pc = if p then s.pc + 2 else s.pc + 4 := by
  simp only [pc_advance_skipIf, decide_eq_true_eq, ite_not]

/-- Settles O24. -/
theorem immediateSkips : Obligations.ImmediateSkips := fun s x nn =>
  ⟨encodedAs_seImm x nn, encodedAs_sneImm x nn,
    ⟨_, exec_seImm x nn s, skipIf_pcOnly s _, pc_skipIf_decide s (s.reg x = nn)⟩,
    ⟨_, exec_sneImm x nn s, skipIf_pcOnly s _, pc_skipIf_decide_not s (s.reg x = nn)⟩⟩

/-- Settles O25. -/
theorem registerSkips : Obligations.RegisterSkips := fun s x y =>
  ⟨encodedAs_seReg x y, encodedAs_sneReg x y,
    ⟨_, exec_seReg x y s, skipIf_pcOnly s _, pc_skipIf_decide s (s.reg x = s.reg y)⟩,
    ⟨_, exec_sneReg x y s, skipIf_pcOnly s _, pc_skipIf_decide_not s (s.reg x = s.reg y)⟩⟩

/-! ## Results without a flag -/

theorem exec_addImm (x : RegIdx) (nn : Byte) (s : State) :
    exec (.addImm x nn) s = .next (s.advance.setReg x (s.reg x + nn)) := rfl

theorem exec_ldReg (x y : RegIdx) (s : State) : exec (.ldReg x y) s = .next (s.advance.setReg x (s.reg y)) := rfl

theorem exec_orReg (x y : RegIdx) (s : State) :
    exec (.orReg x y) s = .next (s.advance.setReg x (s.reg x ||| s.reg y)) := rfl

theorem exec_andReg (x y : RegIdx) (s : State) :
    exec (.andReg x y) s = .next (s.advance.setReg x (s.reg x &&& s.reg y)) := rfl

theorem exec_xorReg (x y : RegIdx) (s : State) :
    exec (.xorReg x y) s = .next (s.advance.setReg x (s.reg x ^^^ s.reg y)) := rfl

/-- What every register reads as after an advance and the write of one. -/
theorem reg_advance_setReg (s : State) (x : RegIdx) (b : Byte) (z : RegIdx) :
    (s.advance.setReg x b).reg z = if z = x then b else s.reg z :=
  reg_setReg s.advance x z b

/-- Settles O28: each is an advance and one register write. -/
theorem addImmediateCopyAndLogicSetNoFlag : Obligations.AddImmediateCopyAndLogicSetNoFlag := by
  refine fun s x y nn => ⟨encodedAs_addImm x nn, encodedAs_ldReg x y, encodedAs_orReg x y, encodedAs_andReg x y,
    encodedAs_xorReg x y,
    ⟨_, exec_addImm x nn s, advance_setReg_registersOnly s x _, ?_, fun z hz => reg_setReg_other s.advance x z _ hz⟩,
    ⟨_, exec_ldReg x y s, advance_setReg_registersOnly s x _, reg_advance_setReg s x _⟩,
    ⟨_, exec_orReg x y s, advance_setReg_registersOnly s x _, reg_advance_setReg s x _⟩,
    ⟨_, exec_andReg x y s, advance_setReg_registersOnly s x _, reg_advance_setReg s x _⟩,
    ⟨_, exec_xorReg x y s, advance_setReg_registersOnly s x _, reg_advance_setReg s x _⟩⟩
  rw [reg_setReg_same, BitVec.toNat_add]

/-! ## Results with a flag, VF written last -/

theorem exec_addReg (x y : RegIdx) (s : State) :
    exec (.addReg x y) s =
      .next (s.advance.setRegThenFlag x (s.reg x + s.reg y) (carryFlag (s.reg x) (s.reg y))) := rfl

theorem exec_subReg (x y : RegIdx) (s : State) :
    exec (.subReg x y) s =
      .next (s.advance.setRegThenFlag x (s.reg x - s.reg y) (greaterFlag (s.reg x) (s.reg y))) := rfl

theorem exec_subn (x y : RegIdx) (s : State) :
    exec (.subn x y) s =
      .next (s.advance.setRegThenFlag x (s.reg y - s.reg x) (greaterFlag (s.reg y) (s.reg x))) := rfl

theorem exec_shr (x y : RegIdx) (s : State) :
    exec (.shr x y) s =
      .next (s.advance.setRegThenFlag x (s.shiftOperand x y >>> 1) (shiftedOutLow (s.shiftOperand x y))) := rfl

theorem exec_shl (x y : RegIdx) (s : State) :
    exec (.shl x y) s =
      .next (s.advance.setRegThenFlag x (s.shiftOperand x y <<< 1) (shiftedOutHigh (s.shiftOperand x y))) := rfl

theorem advance_setRegThenFlag_registersOnly (s : State) (x : RegIdx) (b : Byte) (f : Bool) :
    RegistersOnly s (s.advance.setRegThenFlag x b f) :=
  ⟨rfl, sameMemory_of rfl rfl⟩

theorem reg_vf_setRegThenFlag (s : State) (x : RegIdx) (b : Byte) (f : Bool) :
    (s.advance.setRegThenFlag x b f).reg vf = flagByte f := by
  rw [reg_setRegThenFlag, if_pos rfl]

theorem reg_result_setRegThenFlag (s : State) {x : RegIdx} (b : Byte) (f : Bool) (hx : x ≠ vf) :
    (s.advance.setRegThenFlag x b f).reg x = b := by
  rw [reg_setRegThenFlag, if_neg hx, if_pos rfl]

theorem reg_other_setRegThenFlag (s : State) {x z : RegIdx} (b : Byte) (f : Bool) (hzx : z ≠ x) (hz : z ≠ vf) :
    (s.advance.setRegThenFlag x b f).reg z = s.reg z := by
  rw [reg_setRegThenFlag, if_neg hz, if_neg hzx, reg_advance]

theorem flagByte_decide (p : Prop) [Decidable p] : flagByte (decide p) = if p then 1 else 0 := by
  simp only [flagByte, decide_eq_true_eq]

/-- Settles O29. -/
theorem addSetsCarryLast : Obligations.AddSetsCarryLast := by
  refine fun s x y => ⟨encodedAs_addReg x y, _, exec_addReg x y s, advance_setRegThenFlag_registersOnly s x _ _,
    ?_, fun hx => ?_, fun z => reg_other_setRegThenFlag s _ _⟩
  · rw [reg_vf_setRegThenFlag]
    exact flagByte_decide _
  · rw [reg_result_setRegThenFlag s _ _ hx, BitVec.toNat_add]

/-- A difference of bytes, modulo 256. -/
theorem toNat_sub_byte (a b : Byte) : (a - b).toNat = (256 + a.toNat - b.toNat) % 256 := by
  have := b.isLt
  rw [BitVec.toNat_sub]
  congr 1
  omega

/-- What a subtraction leaves, whichever register is the minuend. -/
theorem subtract_spec (s : State) (x : RegIdx) (a b : Byte) :
    RegistersOnly s (s.advance.setRegThenFlag x (a - b) (greaterFlag a b)) ∧
      (s.advance.setRegThenFlag x (a - b) (greaterFlag a b)).reg vf = (if b.toNat < a.toNat then 1 else 0) ∧
      (x ≠ vf → ((s.advance.setRegThenFlag x (a - b) (greaterFlag a b)).reg x).toNat =
        (256 + a.toNat - b.toNat) % 256) ∧
      ∀ z, z ≠ x → z ≠ vf → (s.advance.setRegThenFlag x (a - b) (greaterFlag a b)).reg z = s.reg z := by
  refine ⟨advance_setRegThenFlag_registersOnly s x _ _, ?_, fun hx => ?_, fun z => reg_other_setRegThenFlag s _ _⟩
  · rw [reg_vf_setRegThenFlag]
    exact flagByte_decide _
  · rw [reg_result_setRegThenFlag s _ _ hx, toNat_sub_byte]

/-- Settles O30. -/
theorem subtractsSetStrictFlagLast : Obligations.SubtractsSetStrictFlagLast := fun s x y =>
  ⟨encodedAs_subReg x y, encodedAs_subn x y,
    ⟨_, exec_subReg x y s, subtract_spec s x (s.reg x) (s.reg y)⟩,
    ⟨_, exec_subn x y s, subtract_spec s x (s.reg y) (s.reg x)⟩⟩

/-- The shifted register is the one SHIFT_SOURCE names (42_register_alu.md R149, R151). -/
theorem shiftOperand_eq (s : State) (x y : RegIdx) :
    s.shiftOperand x y = s.reg (if s.cfg.shiftSource = .vx then x else y) := by
  unfold State.shiftOperand
  cases s.cfg.shiftSource <;> rfl

/-- The bit a right shift drops is the remainder by 2. -/
theorem toNat_flagByte_shiftedOutLow (a : Byte) : (flagByte (shiftedOutLow a)).toNat = a.toNat % 2 := by
  have hbit : shiftedOutLow a = decide (a.toNat % 2 = 1) := Nat.testBit_zero a.toNat
  rw [hbit, flagByte_decide]
  split
  · exact Eq.symm ‹_›
  · simp only [BitVec.ofNat_eq_ofNat, BitVec.reduceToNat]
    omega

/-- The bit a left shift drops is the quotient by 128. -/
theorem toNat_flagByte_shiftedOutHigh (a : Byte) : (flagByte (shiftedOutHigh a)).toNat = a.toNat / 128 := by
  have := a.isLt
  have hbit : shiftedOutHigh a = decide (a.toNat / 128 % 2 = 1) := Nat.testBit_eq_decide_div_mod_eq
  rw [hbit, flagByte_decide]
  split
  · simp only [BitVec.ofNat_eq_ofNat, BitVec.reduceToNat]
    omega
  · simp only [BitVec.ofNat_eq_ofNat, BitVec.reduceToNat]
    omega

theorem toNat_shiftRight_one (a : Byte) : (a >>> 1).toNat = a.toNat / 2 := by
  rw [BitVec.toNat_ushiftRight, Nat.shiftRight_one]

theorem toNat_shiftLeft_one (a : Byte) : (a <<< 1).toNat = a.toNat * 2 % 256 := by
  rw [BitVec.toNat_shiftLeft, Nat.shiftLeft_eq]

/-- Settles O31. -/
theorem shiftsByOneSetFlagLast : Obligations.ShiftsByOneSetFlagLast := by
  intro s x y src hsrc
  have hop : s.shiftOperand x y = s.reg src := hsrc ▸ shiftOperand_eq s x y
  refine ⟨encodedAs_shr x y, encodedAs_shl x y,
    ⟨_, exec_shr x y s, advance_setRegThenFlag_registersOnly s x _ _, ?_, fun hx => ?_,
      fun z => reg_other_setRegThenFlag s _ _⟩,
    ⟨_, exec_shl x y s, advance_setRegThenFlag_registersOnly s x _ _, ?_, fun hx => ?_,
      fun z => reg_other_setRegThenFlag s _ _⟩⟩
  · rw [reg_vf_setRegThenFlag, toNat_flagByte_shiftedOutLow, hop]
  · rw [reg_result_setRegThenFlag s _ _ hx, toNat_shiftRight_one, hop]
  · rw [reg_vf_setRegThenFlag, toNat_flagByte_shiftedOutHigh, hop]
  · rw [reg_result_setRegThenFlag s _ _ hx, toNat_shiftLeft_one, hop]

/-! ## The index register -/

theorem exec_addI (x : RegIdx) (s : State) :
    exec (.addI x) s = .next { s.advance with index := s.index + zextByte (s.reg x) } := rfl

/-- Settles O35. -/
theorem indexAddWraps : Obligations.IndexAddWraps := by
  intro s x
  obtain ⟨hframe, hmem⟩ := advance_index_frame s (s.index + zextByte (s.reg x))
  refine ⟨encodedAs_addI x, _, exec_addI x s, hframe, hmem, ?_⟩
  rw [BitVec.toNat_add, toNat_zextByte]

/-! ## Key tests -/

theorem exec_skp (x : RegIdx) (s : State) :
    exec (.skp x) s =
      commit s ((keyIndex s.cfg.oorPolicy (s.reg x)).map fun k => s.advance.skipIf (s.pressed k)) := rfl

theorem exec_sknp (x : RegIdx) (s : State) :
    exec (.sknp x) s =
      commit s ((keyIndex s.cfg.oorPolicy (s.reg x)).map fun k => s.advance.skipIf (!s.pressed k)) := rfl

theorem commit_key_ok {s : State} {x : RegIdx} {k : KeyCode} (f : KeyCode → State)
    (h : keyIndex s.cfg.oorPolicy (s.reg x) = .ok k) :
    commit s ((keyIndex s.cfg.oorPolicy (s.reg x)).map f) = .next (f k) := by
  rw [h]
  rfl

theorem commit_key_fault {s : State} {x : RegIdx} (f : KeyCode → State) (hp : s.cfg.oorPolicy = .fault)
    (hx : 0xF < (s.reg x).toNat) :
    commit s ((keyIndex s.cfg.oorPolicy (s.reg x)).map f) =
      .next (s.takeOutOfRange ⟨.keyOutOfRange, zextByte (s.reg x)⟩) := by
  rw [hp, keyIndex_fault hx]
  rfl

/-- Settles O46: where Vx names the key k, each test is a skip on the latch of k. -/
theorem keyTestsSkip : Obligations.KeyTestsSkip := by
  intro s x k hk hin
  have hkey := keyIndex_ok hk hin
  refine ⟨encodedAs_skp x, encodedAs_sknp x,
    ⟨_, (exec_skp x s).trans (commit_key_ok _ hkey), skipIf_pcOnly s _, pc_advance_skipIf s _⟩,
    ⟨_, (exec_sknp x s).trans (commit_key_ok _ hkey), skipIf_pcOnly s _, ?_⟩⟩
  rw [pc_advance_skipIf, State.pressed]
  cases s.key.get k <;> rfl

/-- Settles O47. -/
theorem keyOutOfRangeIsTaken : Obligations.KeyOutOfRangeIsTaken := fun s x hp hx =>
  ⟨⟨.keyOutOfRange, s.pc, zextByte (s.reg x)⟩, rfl, rfl, toNat_zextByte (s.reg x),
    (exec_skp x s).trans (commit_key_fault _ hp hx), (exec_sknp x s).trans (commit_key_fault _ hp hx)⟩

end Sys2Proof.Machine
end

section
/-! Host operations (60_exceptions.md; 20_memory.md section 9; 70_reset_and_hazards.md sections 1 and 2): ticks, key-downs,
waits, Faulted cores, loads, resets and reads. -/

namespace Sys2Proof.Machine

/-! ## Ticks -/

theorem hostOp_tick (s : State) : hostOp .tick s = .next (s.tick.1, .tone s.tick.2) := rfl

/-- The tone sounds iff ST was at least 2 (60_exceptions.md R241). -/
theorem tick_tone_iff (s : State) : s.tick.2 = true ↔ 2 ≤ s.st.toNat := by
  have hcount := toNat_countDown s.st
  have hne (b : Byte) : b ≠ 0 ↔ b.toNat ≠ 0 := not_congr BitVec.toNat_inj.symm
  simp only [State.tick, decide_eq_true_eq, hne, hcount]
  omega

/-- Settles O50. -/
theorem tickCountsDownAndSounds : Obligations.TickCountsDownAndSounds := fun s =>
  ⟨_, _, hostOp_tick s, rfl, sameMemory_of rfl rfl, toNat_countDown s.dt, toNat_countDown s.st, tick_tone_iff s⟩

/-- A run of one operation more. -/
theorem runOps_cons {op : HostOp} {ops : List HostOp} {s t u : State} {r : HostResult} {rs : List HostResult}
    (h : hostOp op s = .next (t, r)) (hs : runOps ops t = .next (u, rs)) :
    runOps (op :: ops) s = .next (u, r :: rs) := by
  simp only [runOps, h, hs]

/-- Settles O51, by induction on the ticks: the first of them sounds iff ST was at least 2. -/
theorem soundTimerTones : Obligations.SoundTimerTones := by
  intro s n
  induction n generalizing s with
  | zero => exact ⟨s, [], rfl, rfl, rfl, (Nat.zero_min _).symm⟩
  | succ n ih =>
    obtain ⟨t, rs, hrun, hst, hdt, hcount⟩ := ih s.tick.1
    have htone : (HostResult.tone s.tick.2 == .tone true) = decide (2 ≤ s.st.toNat) := by
      simp only [beq_eq_decide, HostResult.tone.injEq, tick_tone_iff]
    have hdt1 : s.tick.1.dt.toNat = s.dt.toNat - 1 := toNat_countDown s.dt
    have hst1 : s.tick.1.st.toNat = s.st.toNat - 1 := toNat_countDown s.st
    refine ⟨t, _, runOps_cons (hostOp_tick s) hrun, by omega, by omega, ?_⟩
    rw [List.count_cons, hcount, htone, hst1]
    simp only [decide_eq_true_eq]
    split <;> omega

/-! ## Key-downs -/

theorem hostOp_keyDown (s : State) (k : KeyCode) : hostOp (.keyDown k) s = .next (s.keyDown k, .none) := rfl

/-- The latches after one is set. -/
theorem key_get_set (key : Vector Bool 16) (k j : KeyCode) :
    (key.set k.val true k.isLt).get j = if j = k then true else key.get j := by
  simp only [Vector.get_eq_getElem, Vector.getElem_set, Fin.ext_iff, eq_comm]

/-- Settles O52: during a wait for x the code of the key goes to Vx, and at any other time nowhere. -/
theorem keyDownSetsLatchAndEndsAWait : Obligations.KeyDownSetsLatchAndEndsAWait := by
  intro s k
  refine ⟨_, hostOp_keyDown s k, ?_⟩
  by_cases hw : ∃ x, s.execState = .waitingForKey x
  · obtain ⟨x, hx⟩ := hw
    rw [keyDown_waiting hx]
    refine ⟨rfl, sameMemory_of rfl rfl, key_get_set s.key k, fun y hy => ?_, fun hno => absurd hx (hno x)⟩
    cases hx.symm.trans hy
    have hcode : (BitVec.ofNat 8 k.val).toNat = k.val := by
      rw [BitVec.toNat_ofNat]
      omega
    exact ⟨rfl, (congrArg BitVec.toNat (reg_setReg_same s x _)).trans hcode, fun z hz => reg_setReg_other s x z _ hz⟩
  · rw [keyDown_other fun x hx => hw ⟨x, hx⟩]
    exact ⟨rfl, sameMemory_of rfl rfl, key_get_set s.key k, fun x hx => absurd ⟨x, hx⟩ hw, fun _ => ⟨rfl, rfl⟩⟩

/-! ## Operations on a core that does not run -/

theorem hostOp_load (s : State) (image : List Byte) : hostOp (.load image) s = .next (s.hostLoad image) := rfl

/-- A load changes memory at most. -/
theorem hostLoad_frame (s : State) (image : List Byte) :
    (s.hostLoad image).1 = { s with mem := (s.hostLoad image).1.mem } := by
  unfold State.hostLoad
  split
  · exact (loadImage_spec s image programBase ‹_›).1
  · rfl

/-- A host step of a core that does not run changes the model's records only. -/
theorem hostStep_idle {s t : State} {b : Byte} {r : HostResult} (hidle : s.execState ≠ .running)
    (h : s.hostStep b = .next (t, r)) : t = { s with redraw := false, draw := none } := by
  obtain ⟨u, hu, rfl, -⟩ := hostStep_next h
  have hstep := step_idle (s := { s with draw := some b }) hidle
  cases hstep.symm.trans hu
  rfl

/-- On a core that does not run, every operation but reset keeps I, pc, the stack, SP and the pixels; and unless it is the
key-down of a wait, the execution state and the registers. -/
theorem hostOp_not_running {op : HostOp} {s t : State} {r : HostResult} (hidle : s.execState ≠ .running)
    (h : hostOp op s = .next (t, r)) (hreset : op ≠ .reset)
    (hkey : ∀ k, op = .keyDown k → ∀ x, s.execState ≠ .waitingForKey x) :
    t.execState = s.execState ∧ t.v = s.v ∧ t.index = s.index ∧ t.pc = s.pc ∧ t.stack = s.stack ∧ t.sp = s.sp ∧
      t.fb = s.fb := by
  cases op with
  | reset => exact absurd rfl hreset
  | load image =>
    have ht : s.hostLoad image = (t, r) := Host.Outcome.next.inj h
    have hframe : t = { s with mem := t.mem } := by simpa only [ht] using hostLoad_frame s image
    rw [hframe]
    exact ⟨rfl, rfl, rfl, rfl, rfl, rfl, rfl⟩
  | step b =>
    rw [hostStep_idle hidle h]
    exact ⟨rfl, rfl, rfl, rfl, rfl, rfl, rfl⟩
  | keyDown k =>
    cases h
    rw [keyDown_other (hkey k rfl)]
    exact ⟨rfl, rfl, rfl, rfl, rfl, rfl, rfl⟩
  | tick | keyUp | readFb | readStatus => cases h; exact ⟨rfl, rfl, rfl, rfl, rfl, rfl, rfl⟩

/-- Settles O54. -/
theorem onlyKeyDownEndsAWait : Obligations.OnlyKeyDownEndsAWait := by
  intro op s t r x hw h hreset hkey
  obtain ⟨hexec, hrest⟩ := hostOp_not_running (by simp [hw]) h hreset fun k hk => absurd hk (hkey k)
  exact ⟨hexec.trans hw, hrest⟩

theorem hostOp_reset (s : State) : hostOp .reset s = .next (s.hostReset, .none) := rfl

/-- Settles O55. -/
theorem faultedUntilReset : Obligations.FaultedUntilReset := by
  intro op s t r info hf h
  refine ⟨fun hreset => ?_, fun hreset => ?_⟩
  · obtain ⟨hexec, hv, hindex, hpc, -⟩ :=
      hostOp_not_running (by simp [hf]) h hreset fun k _ x hx => by simp [hf] at hx
    exact ⟨hexec.trans hf, hv, hindex, hpc⟩
  · subst hreset
    cases h
    obtain ⟨-, hrunning, -, -⟩ := hostReset_always s
    exact hrunning

/-! ## Loads -/

/-- Settles O56. -/
theorem loadCopiesTheImageOrNothing : Obligations.LoadCopiesTheImageOrNothing := by
  refine fun s image => ⟨fun hfits => ?_, fun hbig => ?_⟩
  · obtain ⟨hframe, -, hbytes⟩ := loadImage_spec s image programBase hfits
    have hload : s.hostLoad image = (s.loadImage image programBase, .loadOk) := if_pos hfits
    refine ⟨_, (hostOp_load s image).trans (congrArg _ hload), hframe, fun k hk => ?_, fun a ha => ?_⟩
    · rw [hbytes, if_pos ⟨Nat.le_add_right _ _, Nat.add_lt_add_left hk _⟩, Nat.add_sub_cancel_left]
    · rw [hbytes, if_neg fun hin => ha.elim (Nat.not_lt_of_le hin.1) (Nat.not_le_of_lt hin.2)]
  · have hload : s.hostLoad image = (s, .loadError) := if_neg (Nat.not_le_of_lt hbig)
    exact (hostOp_load s image).trans (congrArg _ hload)

/-! ## Reset -/

/-- A byte of the font, as blank memory holds it. -/
theorem blank_font (f : Font) (j : Fin 80) : Memory.blank f (fontBase + j.val) = f.get j := by
  rw [Memory.blank, if_pos (Nat.le_add_right _ _), Nat.add_sub_cancel_left, Vector.get_eq_getElem]
  simp [List.getD_eq_getElem?_getD]

/-- Blank memory holds zeros outside the font. -/
theorem blank_outside_font (f : Font) {a : Nat} (h : a < fontBase ∨ fontBase + 80 ≤ a) : Memory.blank f a = 0 := by
  unfold Memory.blank
  split
  · exact List.getD_eq_default _ _ (by rw [Vector.length_toList]; omega)
  · rfl

/-- After every reset the font is in its place. -/
theorem byteAt_hostReset_font (s : State) (j : Fin 80) :
    s.hostReset.byteAt (fontBase + j.val) = s.cfg.font.get j := by
  obtain ⟨-, -, hcfg, hmem⟩ := hostReset_always s
  rw [State.byteAt, hcfg]
  rcases hmem with hmem | ⟨d, hmem⟩
  · rw [hmem]
    exact blank_font s.cfg.font j
  · rw [hmem, get_drawnMemory_font _ _ ⟨Nat.le_add_right _ _, Nat.add_lt_add_left j.isLt _⟩, blank_font]

/-- Settles O57. -/
theorem resetLeavesTheListedValues : Obligations.ResetLeavesTheListedValues := by
  refine ⟨⟨rfl, ?_⟩, fun s => ?_⟩
  · rw [hostOp_reset, hostReset_zero rfl]
  · obtain ⟨hpc, hrunning, hcfg, -⟩ := hostReset_always s
    refine ⟨_, hostOp_reset s, hcfg, hpc, hrunning, byteAt_hostReset_font s, fun hzero => ?_⟩
    rw [hostReset_zero hzero]
    refine ⟨fun z => ?_, rfl, rfl, fun k => ?_, rfl, rfl, fun p => pixel_clear p.1 p.2, fun k => ?_,
      fun a => blank_outside_font s.cfg.font⟩
    · simp [State.reg, State.reset, Vector.get_eq_getElem]
    · simp [State.reset, Vector.get_eq_getElem]
    · simp [State.reset, Vector.get_eq_getElem]

/-! ## A run from reset with nothing loaded -/

/-- The reset state `k` steps of two bytes further on. -/
def slid (k : Nat) : State := { State.reset with pc := BitVec.ofNat 16 (0x200 + 2 * k) }

theorem toNat_slid_pc {k : Nat} (h : k ≤ 1792) : (slid k).pc.toNat = 0x200 + 2 * k := by
  show (BitVec.ofNat 16 (0x200 + 2 * k)).toNat = 0x200 + 2 * k
  rw [BitVec.toNat_ofNat]
  omega

theorem byteAt_slid (k : Nat) {a : Nat} (h : 0xA0 ≤ a) : (slid k).byteAt a = 0 :=
  blank_outside_font conventionalFont (.inr h)

/-- Empty memory holds the unrecognized word 0x0000, which only advances (70_reset_and_hazards.md R275). -/
theorem step_slid {k : Nat} (h : k < 1792) : step (slid k) = .next (slid (k + 1)) := by
  have hpc := toNat_slid_pc (Nat.le_of_lt h)
  have hfetch : (slid k).fetchBytes = .ok [0, 0] := by
    rw [fetchBytes_of_lt (by rw [hpc]; simp only [memSize]; omega), byteAt_slid k (by omega), byteAt_slid k (by omega)]
  have hnext : (slid k).pc + 2 = (slid (k + 1)).pc := by
    apply BitVec.eq_of_toNat_eq
    simp only [BitVec.toNat_add, hpc, toNat_slid_pc h, BitVec.reduceToNat]
    omega
  rw [step_rejected (why := .unrecognized 0) rfl hfetch (by decide), State.advance, hnext]
  rfl

/-- While pc lies in memory a run from reset slides. -/
theorem core_run_slid {j k m : Nat} (h : j + k ≤ 1792) : core.run (k + m) (slid j) = core.run m (slid (j + k)) := by
  induction k generalizing j with
  | zero => rw [Nat.zero_add, Nat.add_zero]
  | succ k ih =>
    rw [Nat.add_right_comm, core_run_succ _ (step_slid (by omega)), ih (by omega), Nat.add_right_comm, Nat.add_assoc]

/-- Settles O58: 1792 steps slide, and the next is a fetch at 0x1000 under policy fault. -/
theorem emptyMemorySlidesThenFaults : Obligations.EmptyMemorySlidesThenFaults := by
  refine ⟨fun k hk => ?_, ?_⟩
  · have hrun := core_run_slid (j := 0) (k := k) (m := 0) (by omega)
    rwa [Nat.zero_add] at hrun
  · have hrun : core.run (1792 + 1) (slid 0) = core.run 1 (slid 1792) := core_run_slid (Nat.le_refl _)
    have hfault := fetchOutsideMemoryIsTaken (slid 1792) rfl rfl (by rw [toNat_slid_pc (Nat.le_refl _)]; decide)
    exact hrun.trans (core_run_succ 0 hfault)

/-! ## Reads -/

/-- Settles O59. -/
theorem readersChangeNothing : Obligations.ReadersChangeNothing := fun _ => ⟨rfl, rfl⟩

end Sys2Proof.Machine
end
